-- ==== Sys2Proof/Word.lean ====
section
/-! DEFINITION. The engine's data shapes (spec/00_scope.md R5, R6; spec/10_state.md R21, R24): 32-bit words, word
vectors of 8 and 16 words with word 0 least significant, and register numbers. The arithmetic on them stands in
Sys2Proof/Machine/Kernel.lean. -/

namespace Sys2Proof

/-- A word: an unsigned integer in [0, 2^32) (R5 `W`, R6). -/
abbrev Word := BitVec 32

/-- A word vector of length `n`, "word 0 = least significant" (R6). -/
abbrev WordVec (n : Nat) := Vector Word n

/-- A field element's eight words (R5 `NW`, R21). -/
abbrev FieldVec := WordVec 8

/-- A double-width value's sixteen words (R5 `NX`, R24). -/
abbrev WideVec := WordVec 16

/-- The number of a field register, F0 to F15 (R5 `NREG`, R21, R65). -/
abbrev RegNum := Fin 16

/-- A word address of the host register space (R5 `AW`, R40). -/
abbrev Addr := BitVec 8

end Sys2Proof
end

