-- ==== Sys2Proof/Syntax.lean ====
section
/-! DEFINITION. The twelve commands (spec/30_encoding.md R62, R63, R65), one constructor per row of
spec/opcode_table.json, in the table's order. Operands are register numbers; XX and CARRY are implicit (R65). -/

namespace Sys2Proof

/-- A command. `rd` is the destination register, `rs1` and `rs2` the sources, `n` SQRN's repeat count. -/
inductive Instr where
  /-- `ADD Fd, Fa, Fb` (R101). -/
  | add (rd rs1 rs2 : RegNum)
  /-- `SUB Fd, Fa, Fb` (R102). -/
  | sub (rd rs1 rs2 : RegNum)
  /-- `NEG Fd, Fa` (R103). -/
  | neg (rd rs1 : RegNum)
  /-- `TWICE Fd, Fa` (R104). -/
  | twice (rd rs1 : RegNum)
  /-- `HALF Fd, Fa` (R105). -/
  | half (rd rs1 : RegNum)
  /-- `MUL Fd, Fa, Fb` (R120). -/
  | mul (rd rs1 rs2 : RegNum)
  /-- `SQR Fd, Fa` (R121). -/
  | sqr (rd rs1 : RegNum)
  /-- `SQRN Fd, Fa, n` (R122); `n` is the 12-bit immediate field (R64). -/
  | sqrn (rd rs1 : RegNum) (n : BitVec 12)
  /-- `ADDONE Fd, Fa` (R106). -/
  | addone (rd rs1 : RegNum)
  /-- `REDUCE Fd`, source XX (R89). -/
  | reduce (rd : RegNum)
  /-- `RED32 Fd, Fa`, carry from CARRY (R90). -/
  | red32 (rd rs1 : RegNum)
  /-- `CANON Fd, Fa` (R91). -/
  | canon (rd rs1 : RegNum)
  deriving DecidableEq, Repr

/-- The one pseudo-instruction, `MOV Fd, Fa` = `CANON Fd, Fa` (R70). -/
abbrev Instr.mov (rd rs1 : RegNum) : Instr := .canon rd rs1

end Sys2Proof
end

