-- ==== Sys2Proof/WellFormed.lean ====
section
/-! DEFINITION. Which terms of `Instr` are commands (spec/30_encoding.md R64, R66 (c)). Register numbers and the
12-bit width of the count are in the types, so the one check left is SQRN's count. -/

namespace Sys2Proof

/-- `i` is a command of the engine: SQRN's repeat count is at least 1 (R64: "1 <= n <= 4095"); every other term is. -/
def Instr.wellFormed (i : Instr) : Bool :=
  match i with
  | .sqrn _ _ n => n != 0
  | .add _ _ _ | .sub _ _ _ | .neg _ _ | .twice _ _ | .half _ _ | .mul _ _ _ | .sqr _ _
  | .addone _ _ | .reduce _ | .red32 _ _ | .canon _ _ => true

end Sys2Proof
end

