-- ==== Sys2Proof/Decode.lean ====
section
/-! DEFINITION. Decoding a command word, and its inverse (spec/30_encoding.md R60 to R69). `decode` is total: every
32-bit word is a command or is illegal, by name. Below it `encode`, `decodeTableWord` (the host's numbering of a table
row's bits, which is this word's own) and the assembler spelling of R69. -/

namespace Sys2Proof

/-- Why a word spells no command (R66 (a), (b), (c)). The engine does not tell the three apart (R134). -/
inductive IllegalCause where
  /-- The op is 0x00 or 0x0D to 0xFF. -/
  | unassignedOp
  /-- A field that the op's format does not use is not zero. -/
  | nonzeroField
  /-- SQRN with a repeat count of zero. -/
  | zeroCount
  deriving DecidableEq, Repr

/-- What R68's `decode` returns. -/
inductive Decoded where
  | legal (i : Instr)
  | illegal (why : IllegalCause)
  deriving DecidableEq, Repr

namespace Field

/-- Bits 31:24, the operation code (R61). -/
def op (w : Word) : BitVec 8 := w.extractLsb' 24 8
/-- Bits 23:20, the destination register number's bits (R61). -/
def rdBits (w : Word) : BitVec 4 := w.extractLsb' 20 4
/-- Bits 19:16, the first source register number's bits (R61). -/
def rs1Bits (w : Word) : BitVec 4 := w.extractLsb' 16 4
/-- Bits 15:12, the second source register number's bits (R61). -/
def rs2Bits (w : Word) : BitVec 4 := w.extractLsb' 12 4
/-- Bits 11:0, the unsigned immediate (R61, R64). -/
def imm (w : Word) : BitVec 12 := w.extractLsb' 0 12

/-- The register a 4-bit specifier names: "value i names register Fi" (R65). -/
def reg (b : BitVec 4) : RegNum := ⟨b.toNat, b.isLt⟩
/-- The 4-bit specifier of a register. -/
def ofReg (r : RegNum) : BitVec 4 := BitVec.ofNat 4 r.val

/-- The destination register. -/
def rd (w : Word) : RegNum := reg (rdBits w)
/-- The first source register. -/
def rs1 (w : Word) : RegNum := reg (rs1Bits w)
/-- The second source register. -/
def rs2 (w : Word) : RegNum := reg (rs2Bits w)

/-- The command word with these fields, most significant first (R61). -/
def pack (op : BitVec 8) (rd rs1 rs2 : BitVec 4) (imm : BitVec 12) : Word :=
  op ++ rd ++ rs1 ++ rs2 ++ imm

end Field

/-- Format R3: op, rd, rs1, rs2; imm must be zero (R62). -/
def decodeR3 (mk : RegNum → RegNum → RegNum → Instr) (w : Word) : Decoded :=
  if Field.imm w ≠ 0 then .illegal .nonzeroField
  else .legal (mk (Field.rd w) (Field.rs1 w) (Field.rs2 w))

/-- Format R2: op, rd, rs1; rs2 and imm must be zero (R62). -/
def decodeR2 (mk : RegNum → RegNum → Instr) (w : Word) : Decoded :=
  if Field.rs2Bits w ≠ 0 ∨ Field.imm w ≠ 0 then .illegal .nonzeroField
  else .legal (mk (Field.rd w) (Field.rs1 w))

/-- Format R2N: op, rd, rs1 and imm = n; rs2 must be zero and n must not (R62). -/
def decodeR2N (mk : RegNum → RegNum → BitVec 12 → Instr) (w : Word) : Decoded :=
  if Field.rs2Bits w ≠ 0 then .illegal .nonzeroField
  else if Field.imm w = 0 then .illegal .zeroCount
  else .legal (mk (Field.rd w) (Field.rs1 w) (Field.imm w))

/-- Format R1: op, rd; rs1, rs2 and imm must be zero (R62). -/
def decodeR1 (mk : RegNum → Instr) (w : Word) : Decoded :=
  if Field.rs1Bits w ≠ 0 ∨ Field.rs2Bits w ≠ 0 ∨ Field.imm w ≠ 0 then .illegal .nonzeroField
  else .legal (mk (Field.rd w))

/-- Decoding, "a total function from 32-bit words to a command or `illegal`" (R63, R68). -/
def decode (w : Word) : Decoded :=
  match (Field.op w).toNat with
  | 0x01 => decodeR3 .add w
  | 0x02 => decodeR3 .sub w
  | 0x03 => decodeR2 .neg w
  | 0x04 => decodeR2 .twice w
  | 0x05 => decodeR2 .half w
  | 0x06 => decodeR3 .mul w
  | 0x07 => decodeR2 .sqr w
  | 0x08 => decodeR2N .sqrn w
  | 0x09 => decodeR2 .addone w
  | 0x0A => decodeR1 .reduce w
  | 0x0B => decodeR2 .red32 w
  | 0x0C => decodeR2 .canon w
  | _ => .illegal .unassignedOp

/-- The word of a command, its unused fields zero (R61, R63, R68: "`encode` is the inverse on legal commands"). -/
def encode (i : Instr) : Word :=
  match i with
  | .add rd rs1 rs2 => Field.pack 0x01 (Field.ofReg rd) (Field.ofReg rs1) (Field.ofReg rs2) 0
  | .sub rd rs1 rs2 => Field.pack 0x02 (Field.ofReg rd) (Field.ofReg rs1) (Field.ofReg rs2) 0
  | .neg rd rs1 => Field.pack 0x03 (Field.ofReg rd) (Field.ofReg rs1) 0 0
  | .twice rd rs1 => Field.pack 0x04 (Field.ofReg rd) (Field.ofReg rs1) 0 0
  | .half rd rs1 => Field.pack 0x05 (Field.ofReg rd) (Field.ofReg rs1) 0 0
  | .mul rd rs1 rs2 => Field.pack 0x06 (Field.ofReg rd) (Field.ofReg rs1) (Field.ofReg rs2) 0
  | .sqr rd rs1 => Field.pack 0x07 (Field.ofReg rd) (Field.ofReg rs1) 0 0
  | .sqrn rd rs1 n => Field.pack 0x08 (Field.ofReg rd) (Field.ofReg rs1) 0 n
  | .addone rd rs1 => Field.pack 0x09 (Field.ofReg rd) (Field.ofReg rs1) 0 0
  | .reduce rd => Field.pack 0x0A (Field.ofReg rd) 0 0 0
  | .red32 rd rs1 => Field.pack 0x0B (Field.ofReg rd) (Field.ofReg rs1) 0 0
  | .canon rd rs1 => Field.pack 0x0C (Field.ofReg rd) (Field.ofReg rs1) 0 0

/-- The command a word spells, none where it is illegal. -/
def Decoded.toOption (d : Decoded) : Option Instr :=
  match d with
  | .legal i => some i
  | .illegal _ => none

/-- The host's question about a row of spec/opcode_table.json: the instruction of the word whose low `nbits` bits are
`w`'s and whose other bits are zero. A command is one 32-bit word (R60), a number with no byte order (R45). -/
def decodeTableWord (nbits w : Nat) : Option Instr :=
  (decode (BitVec.ofNat 32 (w % 2 ^ nbits))).toOption

/-- The opcode map's match and mask columns (R63), by command. -/
def rowMatch (i : Instr) : Word :=
  match i with
  | .add _ _ _ => 0x01000000#32
  | .sub _ _ _ => 0x02000000#32
  | .neg _ _ => 0x03000000#32
  | .twice _ _ => 0x04000000#32
  | .half _ _ => 0x05000000#32
  | .mul _ _ _ => 0x06000000#32
  | .sqr _ _ => 0x07000000#32
  | .sqrn _ _ _ => 0x08000000#32
  | .addone _ _ => 0x09000000#32
  | .reduce _ => 0x0A000000#32
  | .red32 _ _ => 0x0B000000#32
  | .canon _ _ => 0x0C000000#32

/-- See `rowMatch`: "w spells the command exactly when `(w AND mask) = match`, and for SQRN also `w[11:0] != 0`". -/
def rowMask (i : Instr) : Word :=
  match i with
  | .add _ _ _ | .sub _ _ _ | .mul _ _ _ => 0xFF000FFF#32
  | .neg _ _ | .twice _ _ | .half _ _ | .sqr _ _ | .addone _ _ | .red32 _ _ | .canon _ _ => 0xFF00FFFF#32
  | .sqrn _ _ _ => 0xFF00F000#32
  | .reduce _ => 0xFF0FFFFF#32

/-- A register's assembler spelling, F0 to F15 (R69). -/
def asmReg (r : RegNum) : String := "F" ++ toString r.val

/-- The command's assembler spelling, destination first (R69). -/
def assembly (i : Instr) : String :=
  match i with
  | .add rd rs1 rs2 => "ADD " ++ asmReg rd ++ ", " ++ asmReg rs1 ++ ", " ++ asmReg rs2
  | .sub rd rs1 rs2 => "SUB " ++ asmReg rd ++ ", " ++ asmReg rs1 ++ ", " ++ asmReg rs2
  | .neg rd rs1 => "NEG " ++ asmReg rd ++ ", " ++ asmReg rs1
  | .twice rd rs1 => "TWICE " ++ asmReg rd ++ ", " ++ asmReg rs1
  | .half rd rs1 => "HALF " ++ asmReg rd ++ ", " ++ asmReg rs1
  | .mul rd rs1 rs2 => "MUL " ++ asmReg rd ++ ", " ++ asmReg rs1 ++ ", " ++ asmReg rs2
  | .sqr rd rs1 => "SQR " ++ asmReg rd ++ ", " ++ asmReg rs1
  | .sqrn rd rs1 n => "SQRN " ++ asmReg rd ++ ", " ++ asmReg rs1 ++ ", " ++ toString n.toNat
  | .addone rd rs1 => "ADDONE " ++ asmReg rd ++ ", " ++ asmReg rs1
  | .reduce rd => "REDUCE " ++ asmReg rd
  | .red32 rd rs1 => "RED32 " ++ asmReg rd ++ ", " ++ asmReg rs1
  | .canon rd rs1 => "CANON " ++ asmReg rd ++ ", " ++ asmReg rs1

end Sys2Proof
end

