-- ==== Sys2Proof/Config.lean ====
section
/-! DEFINITION. What is fixed for the machine: the modulus and its two wired word vectors (spec/00_scope.md R2,
spec/10_state.md R29), the parameter NMAX (R5), and the free values: constants with no body that stand where the spec
promises no value (spec/00_scope.md R7 UNSPEC256, spec/93_implementation_defined.md U2, U3, U4). The open parameter
hostBusBridge (R5, D9) is read by no rule and is left out (notes/assumptions/6.md). -/

namespace Sys2Proof.Config

/-- The prime p = 2^256 - 2^224 + 2^192 + 2^96 - 1 as the document's literal (R2). -/
def prime : Nat := 0xFFFFFFFF00000001000000000000000000000000FFFFFFFFFFFFFFFFFFFFFFFF

/-- The complement 2^256 - p as the literal of R29. -/
def primeInv : Nat := 0x00000000FFFFFFFEFFFFFFFFFFFFFFFFFFFFFFFF000000000000000000000001

/-- The wired constant P, word 0 first (R2, R29). -/
def P : FieldVec :=
  #v[0xFFFFFFFF#32, 0xFFFFFFFF#32, 0xFFFFFFFF#32, 0x00000000#32,
     0x00000000#32, 0x00000000#32, 0x00000001#32, 0xFFFFFFFF#32]

/-- The wired constant PInv, word 0 first (R29). -/
def PInv : FieldVec :=
  #v[0x00000001#32, 0x00000000#32, 0x00000000#32, 0xFFFFFFFF#32,
     0xFFFFFFFF#32, 0xFFFFFFFF#32, 0xFFFFFFFE#32, 0x00000000#32]

/-- NMAX, the largest repeat count of SQRN (R5, R64). -/
def nMax : Nat := 4095

/-- UNSPEC256: "a 256-bit value about which the spec promises nothing, not even that it is below p" (R7). The
argument is the state's draw counter, so that two draws need not agree. DESIGN CHOICE, notes/assumptions/2.md. -/
opaque unspec256 : Nat → FieldVec

/-- What the host reads from a field-register word never written since reset, to which the spec gives no value
(R32, R42, U4). The argument is the draw counter. DESIGN CHOICE, notes/assumptions/1.md. -/
opaque unspecWord : Nat → Word

end Sys2Proof.Config
end

