-- ==== Sys2Proof/Machine/Kernel.lean ====
section
/-! DEFINITION. Words against integers (spec/00_scope.md R6) and the wide-integer kernel's primitives (R8 to R14, R16,
R17): exact arithmetic on the value of a word vector, with explicit carry, borrow and shifted-out bit. -/

namespace Sys2Proof.Machine

/-- The value of a list of words, the first least significant. -/
def valList : List Word → Nat
  | [] => 0
  | w :: ws => w.toNat + 2 ^ 32 * valList ws

/-- `val(x) = sum over k of x[k] * 2^(32k)` (R6, R22). -/
def val {n : Nat} (x : WordVec n) : Nat := valList x.toList

/-- The low `n` words of `v`, the least significant first. -/
def wordList : Nat → Nat → List Word
  | 0, _ => []
  | n + 1, v => BitVec.ofNat 32 v :: wordList n (v / 2 ^ 32)

theorem length_wordList (n v : Nat) : (wordList n v).length = n := by
  induction n generalizing v with
  | zero => rfl
  | succ n ih => simp [wordList, ih]

/-- `words_n(v)`, with `words_n(v)[k] = floor(v / 2^(32k)) mod 2^32` (R6). -/
def words (n v : Nat) : WordVec n := ⟨(wordList n v).toArray, by simp [length_wordList]⟩

/-- `sext_32(v)`: the word read as a two's-complement integer (R6, R25). -/
def sext32 (w : Word) : Int := w.toInt

/-- `lo32(cc) = cc mod 2^32` (R17). -/
def lo32 (cc : Int) : Word := BitVec.ofInt 32 cc

/-- `cc >> 32 = floor(cc / 2^32)`, "an arithmetic shift that keeps the sign" (R17). -/
def asr32 (cc : Int) : Int := cc / 2 ^ 32

/-- `add8(x, y) -> (z, c)` (R8). -/
def add8 (x y : FieldVec) : FieldVec × Nat :=
  let s := val x + val y
  (words 8 (s % 2 ^ 256), s / 2 ^ 256)

/-- `sub8(x, y) -> (z, b)` (R9). -/
def sub8 (x y : FieldVec) : FieldVec × Nat :=
  let d : Int := (val x : Int) - (val y : Int)
  (words 8 (d % 2 ^ 256).toNat, if d < 0 then 1 else 0)

/-- `cmpGE8(x, y)` (R10). -/
def cmpGE8 (x y : FieldVec) : Bool := decide (val x ≥ val y)

/-- `isZero8(x) = cmpGE8(words_8(0), x)` (R10). -/
def isZero8 (x : FieldVec) : Bool := cmpGE8 (words 8 0) x

/-- `shiftUpBit(x, cin) -> (z, cout)` (R11). -/
def shiftUpBit (x : FieldVec) (cin : Nat) : FieldVec × Nat :=
  let s := 2 * val x + cin
  (words 8 (s % 2 ^ 256), s / 2 ^ 256)

/-- `shiftDownBit(x, cin) -> z` (R12). -/
def shiftDownBit (x : FieldVec) (cin : Nat) : FieldVec :=
  words 8 (val x / 2 + cin * 2 ^ 255)

/-- `mul8x8to16(x, y) -> t`, the exact product (R13). -/
def mul8x8to16 (x y : FieldVec) : WideVec := words 16 (val x * val y)

/-- `square8to16(x) -> t` (R14). -/
def square8to16 (x : FieldVec) : WideVec := words 16 (val x * val x)

end Sys2Proof.Machine
end

