-- ==== Sys2Proof/Machine/Flags.lean ====
section
/-! DEFINITION. Conditions. The engine has no condition codes: a carry, a borrow or a comparison is a value inside one
command and none survives it (spec/10_state.md R28). What stands here are the comparisons with p that commands consume
(spec/00_scope.md R18) and the one status bit, ILL (R26), which no command reads. -/

namespace Sys2Proof.Machine

/-- `geP(z)`: val(z) >= p, the full comparison (R18). -/
def geP (z : FieldVec) : Bool := cmpGE8 z Config.P

/-- The document's fast path for `geP`: the top word is all ones and the full comparison holds (R18, U7). -/
def gePFast (z : FieldVec) : Bool := z[7] == 0xFFFFFFFF#32 && cmpGE8 z Config.P

/-- The vector's value is in [0, p) (R18 "Canonical"). -/
def isCanonical (z : FieldVec) : Bool := !geP z

/-- Bit 0 of STATUS: "1 after any illegal command since reset" (R26). -/
def illOf (status : Word) : Bool := status.getLsbD 0

/-- STATUS with ILL set and its other bits as they are (R26, R131). -/
def setIll (status : Word) : Word := status ||| 1#32

end Sys2Proof.Machine
end

