-- ==== Sys2Proof/Machine/Solinas.lean ====
section
/-! DEFINITION. The engine's internal correction and reduction functions at word level: the helpers `addPInvTo` and
`subPInvFrom`, the correction after an addition, `combine`, `reduce32` and `reduce` (spec/40_reduction.md R80 to R88).
None is a command (R63). -/

namespace Sys2Proof.Machine

/-- The carry loop of R82, R84 and R87 over the column sums, from accumulator `cc`: each output word is the
accumulator's low word, and the accumulator's arithmetic shift goes on to the next column. -/
def carryChain : List Int → Int → List Word × Int
  | [], cc => ([], cc)
  | t :: ts, cc => (lo32 (cc + t) :: (carryChain ts (asr32 (cc + t))).1, (carryChain ts (asr32 (cc + t))).2)

theorem length_carryChain (ts : List Int) (cc : Int) : (carryChain ts cc).1.length = ts.length := by
  induction ts generalizing cc with
  | nil => rfl
  | cons t ts ih => simp [carryChain, ih]

/-- The eight-column loop from accumulator 0: the output words and the final accumulator (R82, R84, R87). -/
def carryLoop (t : Vector Int 8) : FieldVec × Int :=
  (⟨(carryChain t.toList 0).1.toArray, by simp [length_carryChain]⟩, (carryChain t.toList 0).2)

/-- The columns z[j] + d[j] (R84, R85, R87). -/
def columns (z : FieldVec) (d : Vector Int 8) : Vector Int 8 :=
  Vector.ofFn fun j => (z[j].toNat : Int) + d[j]

/-- `c` times PInv in signed word form: "+1 at word 0, −1 at word 3, −1 at word 6, +1 at word 7" (R80, R84, R87). -/
def pInvDigits (c : Int) : Vector Int 8 := #v[c, 0, 0, -c, 0, 0, -c, c]

/-- `addPInvTo(z)`: adds PInv with ripple carry, the carry out of word 7 dropped (R84). -/
def addPInvTo (z : FieldVec) : FieldVec := (carryLoop (columns z (pInvDigits 1))).1

/-- `subPInvFrom(z)`: subtracts PInv, the borrow out of word 7 dropped (R85). -/
def subPInvFrom (z : FieldVec) : FieldVec := (carryLoop (columns z (pInvDigits (-1)))).1

/-- `correctUp(z, c)`, the correction test after an addition-like step (R86). -/
def correctUp (z : FieldVec) (c : Nat) : FieldVec :=
  if c = 1 ∨ geP z = true then addPInvTo z else z

/-- One substitution of the Solinas identity at position t >= 8: the coefficient there moves to t-1, t-2, t-5 and t-8
with signs +, -, -, + (R80, R81). `v` is the coefficient vector, position 0 first. -/
def foldPosition (v : List Int) (t : Nat) : List Int :=
  let c := v.getD t 0
  ((((v.set t 0).set (t - 1) (v.getD (t - 1) 0 + c)).set (t - 2) (v.getD (t - 2) 0 - c)).set
    (t - 5) (v.getD (t - 5) 0 - c)).set (t - 8) (v.getD (t - 8) 0 + c)

/-- R81's procedure: from a unit at position i, the largest position at or above 8 is substituted until none is left. -/
def foldUnit (i : Nat) : List Int :=
  ([15, 14, 13, 12, 11, 10, 9, 8].foldl foldPosition ((List.replicate 16 0).set i 1)).take 8

/-- Row i of the coefficient matrix M as R81 prints it, i = 8 .. 15 from `k = i - 8`. -/
def coefficientRow (k : Fin 8) : Vector Int 8 :=
  #v[#v[ 1,  0,  0, -1,  0,  0, -1,  1],
     #v[ 1,  1,  0, -1, -1,  0, -1,  0],
     #v[ 0,  1,  1,  0, -1, -1,  0, -1],
     #v[-1,  0,  1,  2,  0, -1,  0, -1],
     #v[-1, -1,  0,  2,  2,  0,  0, -1],
     #v[-1, -1, -1,  1,  2,  2,  1, -1],
     #v[-1, -1, -1,  0,  1,  2,  3,  0],
     #v[ 0, -1, -1, -1,  0,  1,  2,  3]][k]

/-- The signed column sums S_0 to S_7 of R81, with x_i = xx[i]. -/
def columnSums (xx : WideVec) : Vector Int 8 :=
  let x8 : Int := xx[8].toNat
  let x9 : Int := xx[9].toNat
  let x10 : Int := xx[10].toNat
  let x11 : Int := xx[11].toNat
  let x12 : Int := xx[12].toNat
  let x13 : Int := xx[13].toNat
  let x14 : Int := xx[14].toNat
  let x15 : Int := xx[15].toNat
  #v[x8 + x9 - x11 - x12 - x13 - x14,
     x9 + x10 - x12 - x13 - x14 - x15,
     x10 + x11 - x13 - x14 - x15,
     2 * x11 + 2 * x12 + x13 - x8 - x9 - x15,
     2 * x12 + 2 * x13 + x14 - x9 - x10,
     2 * x13 + 2 * x14 + x15 - x10 - x11,
     x13 + 3 * x14 + 2 * x15 - x8 - x9,
     x8 + 3 * x15 - x10 - x11 - x12 - x13]

/-- Words 0 to 7 of a double-width value. -/
def lowWords (xx : WideVec) : FieldVec :=
  #v[xx[0], xx[1], xx[2], xx[3], xx[4], xx[5], xx[6], xx[7]]

/-- `combine(xx) -> (z, c)`, the limb combination: column j adds xx[j] and S_j (R82). -/
def combine (xx : WideVec) : FieldVec × Int := carryLoop (columns (lowWords xx) (columnSums xx))

/-- R87's correction step after its loop. -/
def correctSigned (z : FieldVec) (cc : Int) : FieldVec :=
  if cc = 1 ∨ (cc = 0 ∧ geP z = true) then addPInvTo z
  else if cc = -1 then subPInvFrom z
  else z

/-- `reduce32(c, z)`: folds the signed carry c into z and corrects once (R87). -/
def reduce32 (c : Int) (z : FieldVec) : FieldVec :=
  correctSigned (carryLoop (columns z (pInvDigits c))).1 (carryLoop (columns z (pInvDigits c))).2

/-- `reduce(xx) = reduce32(c, z0) where (z0, c) = combine(xx)` (R88). -/
def reduce (xx : WideVec) : FieldVec := reduce32 (combine xx).2 (combine xx).1

/-- `k v`. The case split only makes an evaluator compute `v` before it goes on (`withValue_eq`). -/
def withValue {α : Type} (v : Nat) (k : Nat → α) : α :=
  match v with
  | 0 => k 0
  | m + 1 => k (m + 1)

theorem withValue_eq {α : Type} (v : Nat) (k : Nat → α) : withValue v k = k v := by cases v <;> rfl

/-- `z = reduce(square8to16(z))`, n times (R122). -/
def squareTimes : Nat → FieldVec → FieldVec
  | 0, z => z
  | n + 1, z => withValue (val (reduce (square8to16 z))) fun v => squareTimes n (words 8 v)

end Sys2Proof.Machine
end

