-- ==== Sys2Proof/Machine/State.lean ====
section
/-! DEFINITION. The engine's whole state (spec/10_state.md R20 to R33) as plain data, with the host's side of the
interface (what the host has still to do, what it has read) and the model's counter of free values; the reasons a step
could stop; the state right after reset (R33, R150). -/

namespace Sys2Proof.Machine

/-- One thing the outside does to the engine, one at a time and in order: a word read or a word write of the register
space (R20, R40, R42, R43), or the platform's reset, taken only between accesses (R150). -/
inductive HostEvent where
  /-- `MemRead(addr, 1)` (R42). -/
  | read (addr : Addr)
  /-- `MemWrite(addr, 1, v)` (R43). -/
  | write (addr : Addr) (v : Word)
  /-- The reset event (R150). -/
  | reset
  deriving DecidableEq, Repr

/-- The state. `f`, `xx`, `carry`, `status` and the two tables of defined words are all the state the engine has
(R20, R30); `pending` and `returned` are the host's side; `draws` is the model's own. -/
structure State where
  /-- The field registers F0 to F15, each eight words, word 0 least significant (R21, R22). -/
  f : Vector FieldVec 16
  /-- Which words of F0 to F15 are defined: written since reset (R32). -/
  fDef : Vector (Vector Bool 8) 16
  /-- The double-width operand register XX, sixteen words (R24). -/
  xx : WideVec
  /-- Which words of XX are defined (R32). -/
  xxDef : Vector Bool 16
  /-- CARRY, address 0x90, the signed carry operand of RED32 (R25). -/
  carry : Word
  /-- STATUS, address 0x92: bit 0 is ILL, bits 31:1 are zero (R26). -/
  status : Word
  /-- The accesses and resets the host has still to issue, the next one first (R20, R49; notes/assumptions/4.md). -/
  pending : List HostEvent
  /-- The words the host's reads have returned, the oldest first (R42; notes/assumptions/4.md). -/
  returned : List Word
  /-- How many free values have been drawn (R7 UNSPEC256; the model's own, notes/assumptions/2.md). -/
  draws : Nat
  deriving DecidableEq, Repr

/-- The reasons a step could end in a fault: none. "There is no overflow, divide-by-zero, alignment, access or page
fault anywhere in the engine" (R130), and its one exception is taken as a next state (R131). Safe: a type with no
value hides no behaviour. -/
inductive Fault where
  deriving DecidableEq, Repr

/-- The reasons a step could have no meaning. -/
inductive Refusal where
  /-- Raised by an arm of `exec` whose instruction has no meaning in the model. No arm of this model raises it: all
  twelve commands have their meaning. Safe: a refusal proves nothing about the hardware. -/
  | notModelled (mnemonic : String)
  deriving DecidableEq, Repr

/-- The engine right after reset, with nothing for the host to do (R33, R150): CARRY and STATUS zero, no word of F or
XX defined. The zero words under the undefined flags are DESIGN CHOICE (notes/assumptions/1.md): the spec gives them no
value, and no read of the model shows them. -/
def State.reset : State where
  f := Vector.replicate 16 (Vector.replicate 8 0#32)
  fDef := Vector.replicate 16 (Vector.replicate 8 false)
  xx := Vector.replicate 16 0#32
  xxDef := Vector.replicate 16 false
  carry := 0#32
  status := 0#32
  pending := []
  returned := []
  draws := 0

end Sys2Proof.Machine
end

