-- ==== Sys2Proof/Machine/Ops.lean ====
section
/-! DEFINITION. The named operations over the state: reading and writing registers with their defined words
(spec/10_state.md R21, R24, R25, R31, R32), the address map and the host's reads and plain writes (spec/20_memory.md
R41 to R43), the one exception (spec/60_exceptions.md R131) and the reset event (spec/70_reset_and_hazards.md R150). -/

namespace Sys2Proof.Machine

/-- F[i] as an 8-word vector (R7). -/
def State.reg (s : State) (i : RegNum) : FieldVec := s.f[i]

/-- Word k of F[i] has been written since reset (R32). -/
def State.wordDefined (s : State) (i : RegNum) (k : Fin 8) : Bool := s.fDef[i][k]

/-- All eight words of F[i] are defined (R32: "the eight words of each source register"). -/
def State.regDefined (s : State) (i : RegNum) : Bool := s.fDef[i].toList.all id

/-- All sixteen words of XX are defined (R32, R89). -/
def State.xxDefined (s : State) : Bool := s.xxDef.toList.all id

/-- STATUS.ILL (R26). -/
def State.ill (s : State) : Bool := illOf s.status

/-- The end of a legal command with destination rd (R7 `F[i] <- z`, R32): F[rd] takes the result, or a free value where
the result is UNSPEC256 (`none`), and its eight words become defined. Nothing else of the engine changes (R30). -/
def State.complete (s : State) (rd : RegNum) (result : Option FieldVec) : State :=
  { s with
    f := s.f.set rd (result.getD (Config.unspec256 s.draws))
    fDef := s.fDef.set rd (Vector.replicate 8 true)
    draws := s.draws + (if result.isSome then 0 else 1) }

/-- A host write of one word of a field register: "that word becomes defined; the other seven words keep their
values" (R43). -/
def State.setWord (s : State) (i : RegNum) (k : Fin 8) (v : Word) : State :=
  { s with f := s.f.set i (s.f[i].set k v), fDef := s.fDef.set i (s.fDef[i].set k true) }

/-- A host write of one word of XX (R43). -/
def State.setXXWord (s : State) (k : Fin 16) (v : Word) : State :=
  { s with xx := s.xx.set k v, xxDef := s.xxDef.set k true }

/-- A host write of CARRY (R43). -/
def State.setCarry (s : State) (v : Word) : State := { s with carry := v }

/-- Taking the engine's one exception, IllegalCommand: "STATUS.ILL <- 1; no field register, not XX, not CARRY changes;
no word becomes defined" (R131). Nothing is saved and control goes nowhere, so there is no return (R135, R136). -/
def State.raiseIllegal (s : State) : State := { s with status := setIll s.status }

/-- The reset event: the engine as after reset, the host's side and the draw counter as they are (R150). -/
def State.resetEngine (s : State) : State :=
  { State.reset with pending := s.pending, returned := s.returned, draws := s.draws }

/-- What a word address names (R41). -/
inductive RegAddr where
  | field (i : RegNum) (k : Fin 8)
  | xx (k : Fin 16)
  | carry
  | cmd
  | status
  | unmapped
  deriving DecidableEq, Repr

/-- The address of CMD (R41). -/
def cmdAddr : Addr := 0x91#8

/-- The address map: "i = addr[6:3], k = addr[2:0]" below 0x80, "k = addr[3:0]" in XX (R41). -/
def regAddr (a : Addr) : RegAddr :=
  if a.toNat < 0x80 then
    .field ⟨(a.extractLsb' 3 4).toNat, (a.extractLsb' 3 4).isLt⟩ ⟨(a.extractLsb' 0 3).toNat, (a.extractLsb' 0 3).isLt⟩
  else if a.toNat < 0x90 then .xx ⟨(a.extractLsb' 0 4).toNat, (a.extractLsb' 0 4).isLt⟩
  else if a = 0x90#8 then .carry
  else if a = 0x91#8 then .cmd
  else if a = 0x92#8 then .status
  else .unmapped

/-- The address of word k of F[i], `8*i + k` (R41). -/
def fieldAddr (i : RegNum) (k : Fin 8) : Addr := BitVec.ofNat 8 (8 * i.val + k.val)

/-- The address of word k of XX, `0x80 + k` (R41). -/
def xxAddr (k : Fin 16) : Addr := BitVec.ofNat 8 (0x80 + k.val)

/-- The word `MemRead(a, 1)` returns (R42). A field word that is not defined holds no value the spec knows (R32): the
read returns a free value (DESIGN CHOICE, notes/assumptions/1.md). -/
def State.readValue (s : State) (a : Addr) : Word :=
  match regAddr a with
  | .field i k => if s.wordDefined i k then s.f[i][k] else Config.unspecWord s.draws
  | .xx _ => 0#32
  | .carry => s.carry
  | .cmd => 0#32
  | .status => s.status
  | .unmapped => 0#32

/-- How many free values that read draws. -/
def State.readDraws (s : State) (a : Addr) : Nat :=
  match regAddr a with
  | .field i k => if s.wordDefined i k then 0 else 1
  | .xx _ | .carry | .cmd | .status | .unmapped => 0

/-- `MemRead(a, 1)`: the host gets the word; "a read changes no state" of the engine (R42). -/
def State.hostRead (s : State) (a : Addr) : State :=
  { s with returned := s.returned ++ [s.readValue a], draws := s.draws + s.readDraws a }

end Sys2Proof.Machine
end

