-- ==== Sys2Proof/Machine/Operands.lean ====
section
/-! DEFINITION. What a command finds in its sources. A source is usable when its words are defined (spec/10_state.md
R32) and its value meets the command's precondition (spec/41_additive.md R100, spec/40_reduction.md R89 to R91); where it
is not, the command still completes and its result is a free value (R100 (2), R89; notes/assumptions/1.md, 2.md). All
sources are read from the state before the command (R31). -/

namespace Sys2Proof.Machine

/-- A source of ADD, SUB, NEG, TWICE, HALF, ADDONE, MUL, SQR, SQRN: defined and canonical (R100 (1), R120). -/
def State.fieldOperand (s : State) (i : RegNum) : Option FieldVec :=
  if s.regDefined i && isCanonical (s.reg i) then some (s.reg i) else none

/-- A source of RED32 and CANON: defined, "any 256-bit value" (R90, R91). -/
def State.anyOperand (s : State) (i : RegNum) : Option FieldVec :=
  if s.regDefined i then some (s.reg i) else none

/-- The source of REDUCE: XX, "all 16 words of XX defined and val(XX) < p^2" (R89). -/
def State.wideOperand (s : State) : Option WideVec :=
  if s.xxDefined && decide (val s.xx < Config.prime * Config.prime) then some s.xx else none

/-- The implicit carry of RED32, sext_32(CARRY) (R25, R65, R90). -/
def State.carryOperand (s : State) : Int := sext32 s.carry

/-- A command of one source: the function's value where the source is usable, UNSPEC256 (`none`) where not. -/
def unaryResult {α : Type} (g : α → FieldVec) (a : Option α) : Option FieldVec := a.map g

/-- A command of two sources: both must be usable. -/
def binaryResult (g : FieldVec → FieldVec → FieldVec) (a b : Option FieldVec) : Option FieldVec :=
  a.bind fun x => b.map fun y => g x y

/-- The destination register (R62: every format has rd). -/
def destination (i : Instr) : RegNum :=
  match i with
  | .add rd _ _ | .sub rd _ _ | .neg rd _ | .twice rd _ | .half rd _ | .mul rd _ _ | .sqr rd _ | .sqrn rd _ _
  | .addone rd _ | .reduce rd | .red32 rd _ | .canon rd _ => rd

/-- The command's precondition on the state: every source usable (R89 to R91, R100 (1), R120 to R122). -/
def ready (i : Instr) (s : State) : Bool :=
  match i with
  | .add _ rs1 rs2 | .sub _ rs1 rs2 | .mul _ rs1 rs2 => (s.fieldOperand rs1).isSome && (s.fieldOperand rs2).isSome
  | .neg _ rs1 | .twice _ rs1 | .half _ rs1 | .sqr _ rs1 | .sqrn _ rs1 _ | .addone _ rs1 =>
    (s.fieldOperand rs1).isSome
  | .reduce _ => s.wideOperand.isSome
  | .red32 _ rs1 | .canon _ rs1 => (s.anyOperand rs1).isSome

end Sys2Proof.Machine
end

