-- ==== Sys2Proof/Machine/Additive.lean ====
section
/-! DEFINITION. The modular adder/subtractor: ADD, SUB, NEG, TWICE, HALF, ADDONE (spec/41_additive.md R100 to R106).
Each command's word-level function stands before its meaning. -/

namespace Sys2Proof.Machine

/-- R101: add8, then one correction on a carry or a result at or above p. -/
def modAdd (a b : FieldVec) : FieldVec := correctUp (add8 a b).1 (add8 a b).2

/-- R102: sub8, then subPInvFrom on a borrow. -/
def modSub (a b : FieldVec) : FieldVec :=
  if (sub8 a b).2 = 1 then subPInvFrom (sub8 a b).1 else (sub8 a b).1

/-- R103: zero stays zero, else p - a. -/
def modNeg (a : FieldVec) : FieldVec :=
  if isZero8 a then words 8 0 else (sub8 Config.P a).1

/-- R104: a one-bit left shift, then the correction. -/
def modTwice (a : FieldVec) : FieldVec := correctUp (shiftUpBit a 0).1 (shiftUpBit a 0).2

/-- R105: an even value is shifted right; an odd one has p added first, the sum's carry shifted into bit 255. -/
def modHalf (a : FieldVec) : FieldVec :=
  if a[0].getLsbD 0 = false then shiftDownBit a 0
  else shiftDownBit (add8 a Config.P).1 (add8 a Config.P).2

/-- R106: add8 with one, then the same correction as ADD. -/
def modAddOne (a : FieldVec) : FieldVec := correctUp (add8 a (words 8 1)).1 (add8 a (words 8 1)).2

/-- `ADD Fd, Fa, Fb` (R100, R101). -/
def execAdd (rd rs1 rs2 : RegNum) (s : State) : Host.Outcome State Fault Refusal :=
  .next (s.complete rd (binaryResult modAdd (s.fieldOperand rs1) (s.fieldOperand rs2)))

/-- `SUB Fd, Fa, Fb`, minuend Fa, subtrahend Fb (R100, R102). -/
def execSub (rd rs1 rs2 : RegNum) (s : State) : Host.Outcome State Fault Refusal :=
  .next (s.complete rd (binaryResult modSub (s.fieldOperand rs1) (s.fieldOperand rs2)))

/-- `NEG Fd, Fa` (R100, R103). -/
def execNeg (rd rs1 : RegNum) (s : State) : Host.Outcome State Fault Refusal :=
  .next (s.complete rd (unaryResult modNeg (s.fieldOperand rs1)))

/-- `TWICE Fd, Fa` (R100, R104). -/
def execTwice (rd rs1 : RegNum) (s : State) : Host.Outcome State Fault Refusal :=
  .next (s.complete rd (unaryResult modTwice (s.fieldOperand rs1)))

/-- `HALF Fd, Fa` (R100, R105). -/
def execHalf (rd rs1 : RegNum) (s : State) : Host.Outcome State Fault Refusal :=
  .next (s.complete rd (unaryResult modHalf (s.fieldOperand rs1)))

/-- `ADDONE Fd, Fa` (R100, R106). -/
def execAddone (rd rs1 : RegNum) (s : State) : Host.Outcome State Fault Refusal :=
  .next (s.complete rd (unaryResult modAddOne (s.fieldOperand rs1)))

end Sys2Proof.Machine
end

