-- ==== Sys2Proof/Machine/Multiplicative.lean ====
section
/-! DEFINITION. The modular multiplier and squarer: MUL, SQR, SQRN (spec/42_multiplicative.md R120 to R122). The 16-word
products are values inside the command, not XX (spec/10_state.md R24, R30). -/

namespace Sys2Proof.Machine

/-- R120: the exact product, then `reduce`. -/
def modMul (a b : FieldVec) : FieldVec := reduce (mul8x8to16 a b)

/-- R121: the exact square, then `reduce`. -/
def modSqr (a : FieldVec) : FieldVec := reduce (square8to16 a)

/-- `MUL Fd, Fa, Fb` (R120). -/
def execMul (rd rs1 rs2 : RegNum) (s : State) : Host.Outcome State Fault Refusal :=
  .next (s.complete rd (binaryResult modMul (s.fieldOperand rs1) (s.fieldOperand rs2)))

/-- `SQR Fd, Fa` (R121). -/
def execSqr (rd rs1 : RegNum) (s : State) : Host.Outcome State Fault Refusal :=
  .next (s.complete rd (unaryResult modSqr (s.fieldOperand rs1)))

/-- `SQRN Fd, Fa, n` (R122). The n squarings are one step. A count of zero is no command: its word is illegal (R66 (c)),
and the term is given that word's effect, IllegalCommand. -/
def execSqrn (rd rs1 : RegNum) (n : BitVec 12) (s : State) : Host.Outcome State Fault Refusal :=
  .next (if n = 0 then s.raiseIllegal
    else s.complete rd (unaryResult (squareTimes n.toNat) (s.fieldOperand rs1)))

end Sys2Proof.Machine
end

