-- ==== Sys2Proof/Machine/Reduction.lean ====
section
/-! DEFINITION. The reduction primitives and the normaliser as commands: REDUCE, RED32, CANON (spec/40_reduction.md R89
to R91). -/

namespace Sys2Proof.Machine

/-- R91: "subtract p once" where the value is at or above p. -/
def canonise (z : FieldVec) : FieldVec := if geP z then addPInvTo z else z

/-- `REDUCE Fd`, source XX (R89). XX is unchanged. -/
def execReduce (rd : RegNum) (s : State) : Host.Outcome State Fault Refusal :=
  .next (s.complete rd (unaryResult reduce s.wideOperand))

/-- `RED32 Fd, Fa`, carry sext_32(CARRY) sampled as the command executes (R90, R156). -/
def execRed32 (rd rs1 : RegNum) (s : State) : Host.Outcome State Fault Refusal :=
  .next (s.complete rd (unaryResult (reduce32 s.carryOperand) (s.anyOperand rs1)))

/-- `CANON Fd, Fa` (R91). -/
def execCanon (rd rs1 : RegNum) (s : State) : Host.Outcome State Fault Refusal :=
  .next (s.complete rd (unaryResult canonise (s.anyOperand rs1)))

end Sys2Proof.Machine
end

