-- ==== Sys2Proof/Machine/Dispatch.lean ====
section
/-! DEFINITION. One arm per command: its meaning. -/

namespace Sys2Proof.Machine

def exec (i : Instr) (s : State) : Host.Outcome State Fault Refusal :=
  match i with
  | .add rd rs1 rs2 => Sys2Proof.Machine.execAdd rd rs1 rs2 s
  | .sub rd rs1 rs2 => Sys2Proof.Machine.execSub rd rs1 rs2 s
  | .neg rd rs1 => Sys2Proof.Machine.execNeg rd rs1 s
  | .twice rd rs1 => Sys2Proof.Machine.execTwice rd rs1 s
  | .half rd rs1 => Sys2Proof.Machine.execHalf rd rs1 s
  | .mul rd rs1 rs2 => Sys2Proof.Machine.execMul rd rs1 rs2 s
  | .sqr rd rs1 => Sys2Proof.Machine.execSqr rd rs1 s
  | .sqrn rd rs1 n => Sys2Proof.Machine.execSqrn rd rs1 n s
  | .addone rd rs1 => Sys2Proof.Machine.execAddone rd rs1 s
  | .reduce rd => Sys2Proof.Machine.execReduce rd s
  | .red32 rd rs1 => Sys2Proof.Machine.execRed32 rd rs1 s
  | .canon rd rs1 => Sys2Proof.Machine.execCanon rd rs1 s

end Sys2Proof.Machine
end

