-- ==== Sys2Proof/Machine/Bus.lean ====
section
/-! DEFINITION. The host's accesses as steps of the engine (spec/10_state.md R20, spec/20_memory.md R43, R44, R49,
spec/70_reset_and_hazards.md R150): a write to CMD decodes the word and runs the command to its end before the write is
over. -/

namespace Sys2Proof.Machine

/-- Issuing the command word w: decode comes before everything else (R134); a legal word runs (R44), an illegal one
raises IllegalCommand (R131). The word is not stored (R44). -/
def issue (w : Word) (s : State) : Host.Outcome State Fault Refusal :=
  match decode w with
  | .legal i => exec i s
  | .illegal _ => .next s.raiseIllegal

/-- `MemWrite(a, 1, v)` (R43). Writes of STATUS and of unmapped addresses are ignored (R26, R48). -/
def hostWrite (a : Addr) (v : Word) (s : State) : Host.Outcome State Fault Refusal :=
  match regAddr a with
  | .field i k => .next (s.setWord i k v)
  | .xx k => .next (s.setXXWord k v)
  | .carry => .next (s.setCarry v)
  | .cmd => issue v s
  | .status => .next s
  | .unmapped => .next s

/-- One event from outside, as one atomic step (R20, R47, R150). -/
def perform (e : HostEvent) (s : State) : Host.Outcome State Fault Refusal :=
  match e with
  | .read a => .next (s.hostRead a)
  | .write a v => hostWrite a v s
  | .reset => .next s.resetEngine

/-- The host's next event is over to be performed: it leaves the list. -/
def State.dropEvent (s : State) : State := { s with pending := s.pending.tail }

/-- One step: the host's next event is performed; with none, the engine is idle and holds its state
(R20; notes/assumptions/4.md). -/
def stepEvent (s : State) : Host.Outcome State Fault Refusal :=
  match s.pending with
  | [] => .next s
  | e :: _ => perform e s.dropEvent

/-- The host's next access made a write of the command word w to CMD, before what was pending. -/
def State.withCommand (s : State) (w : Word) : State :=
  { s with pending := .write cmdAddr w :: s.pending }

end Sys2Proof.Machine
end

