-- ==== Sys2Proof/Machine/Step.lean ====
section
/-! DEFINITION. The machine's step: the host's next access or reset, performed atomically (spec/10_state.md R20), and
the host's placing of one command word where the next step takes it. -/

namespace Sys2Proof.Machine

/-- One step of the machine (R20). -/
def step (s : State) : Host.Outcome State Fault Refusal := stepEvent s

/-- `s` with the command word whose low `nbits` bits are `w`'s as the data of the host's next write to CMD (R44): the
engine fetches nothing (R27), so this is where a command comes from (notes/assumptions/4.md). -/
def State.withFetchWord (s : State) (nbits w : Nat) : State :=
  s.withCommand (BitVec.ofNat 32 (w % 2 ^ nbits))

end Sys2Proof.Machine
end

