-- ==== Sys2Proof/Machine/Script.lean ====
section
/-! DEFINITION. The host script forms of spec/30_encoding.md R70, each expanded to the host accesses it stands for. They
are not hardware: a script is what the host does. -/

namespace Sys2Proof.Machine.Script

/-- `WR addr, v`. -/
def wr (a : Addr) (v : Word) : List HostEvent := [.write a v]

/-- `RD addr`. -/
def rd (a : Addr) : List HostEvent := [.read a]

/-- A command: `WR 0x91, encode(<command>)`. -/
def command (i : Instr) : List HostEvent := wr cmdAddr (encode i)

/-- `LDF Fi, v`: eight writes `WR 8*i + k, words_8(v)[k]`. -/
def ldf (i : RegNum) (v : Nat) : List HostEvent :=
  (List.finRange 8).map fun k => .write (fieldAddr i k) (words 8 v)[k]

/-- `LDXX v`: sixteen writes `WR 0x80 + k, words_16(v)[k]`. -/
def ldxx (v : Nat) : List HostEvent :=
  (List.finRange 16).map fun k => .write (xxAddr k) (words 16 v)[k]

/-- `STF Fi`: eight reads `RD 8*i + k`. -/
def stf (i : RegNum) : List HostEvent :=
  (List.finRange 8).map fun k => .read (fieldAddr i k)

/-- `SETC c`: `WR 0x90, c mod 2^32`. -/
def setc (c : Int) : List HostEvent := wr 0x90#8 (lo32 c)

end Sys2Proof.Machine.Script
end

