-- ==== Sys2Proof/Safety.lean ====
section
/-! DEFINITION. What claims mean by a safe run and by a proper state: the invariant every step keeps, and the host
behaviour inside which the spec gives every result a value (spec/60_exceptions.md R132, R140;
spec/70_reset_and_hazards.md R151; spec/93_implementation_defined.md U2 to U4). -/

namespace Sys2Proof.Machine

/-- The state's invariant. -/
structure State.Inv (s : State) : Prop where
  /-- STATUS bits 31:1 are zero (R26). -/
  statusReserved : ∀ j : Fin 32, j.val ≠ 0 → s.status.getLsbD j.val = false
  /-- A field word that is not defined is stored as zero, so that equal engines are equal data (notes/assumptions/1.md). -/
  fieldUndefined : ∀ i : RegNum, ∀ k : Fin 8, s.wordDefined i k = false → (s.reg i)[k] = 0#32
  /-- An XX word that is not defined is stored as zero. -/
  xxUndefined : ∀ k : Fin 16, s.xxDef[k] = false → s.xx[k] = 0#32

/-- Register i meets the precondition of a source of ADD, SUB, NEG, TWICE, HALF, ADDONE, MUL, SQR and SQRN: its words
are defined and its value is canonical (R100 (1), R120). -/
abbrev State.CanonicalSource (s : State) (i : RegNum) : Prop :=
  s.regDefined i = true ∧ val (s.reg i) < Config.prime

/-- Nothing but register rd and its defined words differs between s and t, the count of free values apart (R30). -/
abbrev KeepsAllBut (rd : RegNum) (s t : State) : Prop :=
  (∀ r : RegNum, r ≠ rd → t.reg r = s.reg r ∧ (∀ k, t.wordDefined r k = s.wordDefined r k)) ∧
  t.xx = s.xx ∧ t.xxDef = s.xxDef ∧ t.carry = s.carry ∧ t.status = s.status ∧
  t.pending = s.pending ∧ t.returned = s.returned

/-- Command i, run on s, answers a next state in which its destination is defined and holds the value v, and nothing
else is changed. -/
abbrev Leaves (i : Instr) (s : State) (v : Nat) : Prop :=
  ∃ t, exec i s = .next t ∧ val (t.reg (destination i)) = v ∧ t.regDefined (destination i) = true ∧
    KeepsAllBut (destination i) s t

/-- The sources of command i whose values must be canonical (R100 (1), R120 to R122). -/
def canonicalSources (i : Instr) : List RegNum :=
  match i with
  | .add _ rs1 rs2 | .sub _ rs1 rs2 | .mul _ rs1 rs2 => [rs1, rs2]
  | .neg _ rs1 | .twice _ rs1 | .half _ rs1 | .sqr _ rs1 | .sqrn _ rs1 _ | .addone _ rs1 => [rs1]
  | .reduce _ | .red32 _ _ | .canon _ _ => []

/-- i is one of the six commands of spec/41_additive.md. -/
def isAdditive (i : Instr) : Bool :=
  match i with
  | .add _ _ _ | .sub _ _ _ | .neg _ _ | .twice _ _ | .half _ _ | .addone _ _ => true
  | .mul _ _ _ | .sqr _ _ | .sqrn _ _ _ | .reduce _ | .red32 _ _ | .canon _ _ => false

/-- The engine's own state is the same in s and t (R20, R30: all the state the engine has). -/
abbrev SameEngine (s t : State) : Prop :=
  t.f = s.f ∧ t.fDef = s.fDef ∧ t.xx = s.xx ∧ t.xxDef = s.xxDef ∧ t.carry = s.carry ∧ t.status = s.status

/-- The state after k steps. -/
def runSteps : Nat → State → Host.Outcome State Fault Refusal
  | 0, s => .next s
  | k + 1, s =>
    match step s with
    | .next t => runSteps k t
    | .fault r => .fault r
    | .refused r => .refused r

/-- Event e may change the word at a: it is the reset event, a write of a, or a write to CMD of a legal command whose
destination is the register that holds the word (R43, R44, R49 (3), R150). -/
def touches (a : Addr) (e : HostEvent) : Bool :=
  match e with
  | .reset => true
  | .read _ => false
  | .write b v =>
    b == a || (b == cmdAddr &&
      match decode v, regAddr a with
      | .legal c, .field i _ => destination c == i
      | _, _ => false)

/-- The host's next event is one whose whole effect the spec states: a read of a field word finds it defined (R32), a
word written to CMD is legal and its sources meet the command's precondition (R151). -/
def State.nextSafe (s : State) : Bool :=
  match s.pending with
  | [] => true
  | .reset :: _ => true
  | .read a :: _ =>
    match regAddr a with
    | .field i k => s.wordDefined i k
    | .xx _ | .carry | .cmd | .status | .unmapped => true
  | .write a v :: _ =>
    match regAddr a with
    | .cmd =>
      match decode v with
      | .legal i => ready i s
      | .illegal _ => false
    | .field _ _ | .xx _ | .carry | .status | .unmapped => true

end Sys2Proof.Machine
end

