-- ==== Sys2Proof/Certificates/Slice0/Obligations.lean ====
section
/-! DEFINITION. The statements about the engine, each from a numbered rule of spec/. OBLIGATIONS.json lists them with
their tiers, bases and quotations. `unspec256` and `unspecWord` are free values: a statement that names one holds for
every value of it. -/

open Sys2Proof Sys2Proof.Machine

/-! ## Constants and comparisons -/

/-- R2: the three forms of p agree, and p is odd. -/
def Obligations.PrimeFormsAgree : Prop :=
  Config.prime = 2 ^ 256 - 2 ^ 224 + 2 ^ 192 + 2 ^ 96 - 1 ∧
  Config.prime = 0xFFFFFFFF00000001000000000000000000000000FFFFFFFFFFFFFFFFFFFFFFFF ∧
  val (#v[0xFFFFFFFF#32, 0xFFFFFFFF#32, 0xFFFFFFFF#32, 0#32, 0#32, 0#32, 1#32, 0xFFFFFFFF#32] : FieldVec) = Config.prime ∧
  Config.P = #v[0xFFFFFFFF#32, 0xFFFFFFFF#32, 0xFFFFFFFF#32, 0#32, 0#32, 0#32, 1#32, 0xFFFFFFFF#32] ∧
  Config.prime % 2 = 1

/-- R18: `geP` is the comparison with p, a vector is canonical exactly below p, and the fast path is equal. -/
def Obligations.ComparisonWithPrime : Prop :=
  ∀ z : FieldVec, (geP z = true ↔ val z ≥ Config.prime) ∧ (isCanonical z = true ↔ val z < Config.prime) ∧
    gePFast z = geP z

/-! ## Encoding -/

/-- 30_encoding.md section 5: the example words of the twelve commands decode to them. -/
def Obligations.ExampleWordsDecode : Prop :=
  decode 0x01201000#32 = .legal (.add 2 0 1) ∧
  decode 0x02301000#32 = .legal (.sub 3 0 1) ∧
  decode 0x03400000#32 = .legal (.neg 4 0) ∧
  decode 0x04610000#32 = .legal (.twice 6 1) ∧
  decode 0x05760000#32 = .legal (.half 7 6) ∧
  decode 0x06201000#32 = .legal (.mul 2 0 1) ∧
  decode 0x07320000#32 = .legal (.sqr 3 2) ∧
  decode 0x08400008#32 = .legal (.sqrn 4 0 8) ∧
  decode 0x09810000#32 = .legal (.addone 8 1) ∧
  decode 0x0A000000#32 = .legal (.reduce 0) ∧
  decode 0x0B210000#32 = .legal (.red32 2 1) ∧
  decode 0x0C430000#32 = .legal (.canon 4 3)

/-- R61, R62, R68: decode reads the fields off the word as a number, and a word whose unused fields are not zero, whose
SQRN count is zero or whose op is unassigned is illegal. -/
def Obligations.DecodeReadsWordFields : Prop :=
  ∀ (w : Word) (op rs2 imm : Nat) (rd ra rb : RegNum),
    op = w.toNat / 2 ^ 24 → rd.val = w.toNat / 2 ^ 20 % 16 → ra.val = w.toNat / 2 ^ 16 % 16 →
    rs2 = w.toNat / 2 ^ 12 % 16 → rb.val = rs2 → imm = w.toNat % 2 ^ 12 →
    (decode w).toOption =
      if op = 0x01 then (if imm = 0 then some (.add rd ra rb) else none)
      else if op = 0x02 then (if imm = 0 then some (.sub rd ra rb) else none)
      else if op = 0x03 then (if rs2 = 0 ∧ imm = 0 then some (.neg rd ra) else none)
      else if op = 0x04 then (if rs2 = 0 ∧ imm = 0 then some (.twice rd ra) else none)
      else if op = 0x05 then (if rs2 = 0 ∧ imm = 0 then some (.half rd ra) else none)
      else if op = 0x06 then (if imm = 0 then some (.mul rd ra rb) else none)
      else if op = 0x07 then (if rs2 = 0 ∧ imm = 0 then some (.sqr rd ra) else none)
      else if op = 0x08 then (if rs2 = 0 ∧ imm ≠ 0 then some (.sqrn rd ra (BitVec.ofNat 12 imm)) else none)
      else if op = 0x09 then (if rs2 = 0 ∧ imm = 0 then some (.addone rd ra) else none)
      else if op = 0x0A then (if ra.val = 0 ∧ rs2 = 0 ∧ imm = 0 then some (.reduce rd) else none)
      else if op = 0x0B then (if rs2 = 0 ∧ imm = 0 then some (.red32 rd ra) else none)
      else if op = 0x0C then (if rs2 = 0 ∧ imm = 0 then some (.canon rd ra) else none)
      else none

/-- R61, R68: encode puts each field at its place, the unused fields zero. -/
def Obligations.EncodePlacesFields : Prop :=
  ∀ (d a b : RegNum) (n : BitVec 12),
    (encode (.add d a b)).toNat = 0x01 * 2 ^ 24 + d.val * 2 ^ 20 + a.val * 2 ^ 16 + b.val * 2 ^ 12 ∧
    (encode (.sub d a b)).toNat = 0x02 * 2 ^ 24 + d.val * 2 ^ 20 + a.val * 2 ^ 16 + b.val * 2 ^ 12 ∧
    (encode (.neg d a)).toNat = 0x03 * 2 ^ 24 + d.val * 2 ^ 20 + a.val * 2 ^ 16 ∧
    (encode (.twice d a)).toNat = 0x04 * 2 ^ 24 + d.val * 2 ^ 20 + a.val * 2 ^ 16 ∧
    (encode (.half d a)).toNat = 0x05 * 2 ^ 24 + d.val * 2 ^ 20 + a.val * 2 ^ 16 ∧
    (encode (.mul d a b)).toNat = 0x06 * 2 ^ 24 + d.val * 2 ^ 20 + a.val * 2 ^ 16 + b.val * 2 ^ 12 ∧
    (encode (.sqr d a)).toNat = 0x07 * 2 ^ 24 + d.val * 2 ^ 20 + a.val * 2 ^ 16 ∧
    (encode (.sqrn d a n)).toNat = 0x08 * 2 ^ 24 + d.val * 2 ^ 20 + a.val * 2 ^ 16 + n.toNat ∧
    (encode (.addone d a)).toNat = 0x09 * 2 ^ 24 + d.val * 2 ^ 20 + a.val * 2 ^ 16 ∧
    (encode (.reduce d)).toNat = 0x0A * 2 ^ 24 + d.val * 2 ^ 20 ∧
    (encode (.red32 d a)).toNat = 0x0B * 2 ^ 24 + d.val * 2 ^ 20 + a.val * 2 ^ 16 ∧
    (encode (.canon d a)).toNat = 0x0C * 2 ^ 24 + d.val * 2 ^ 20 + a.val * 2 ^ 16

/-- R68: decode and encode are inverse, on every command and on every legal word. -/
def Obligations.DecodeAndEncodeAgree : Prop :=
  (∀ i : Instr, i.wellFormed = true → decode (encode i) = .legal i) ∧
  (∀ (w : Word) (i : Instr), decode w = .legal i → encode i = w ∧ i.wellFormed = true)

/-- R63: a word spells a command exactly when its masked bits match, and for SQRN also its low 12 bits are not zero. -/
def Obligations.WordSpellsCommandByMask : Prop :=
  ∀ w : Word,
    ((∃ d a b, decode w = .legal (.add d a b)) ↔ w &&& 0xFF000FFF#32 = 0x01000000#32) ∧
    ((∃ d a b, decode w = .legal (.sub d a b)) ↔ w &&& 0xFF000FFF#32 = 0x02000000#32) ∧
    ((∃ d a, decode w = .legal (.neg d a)) ↔ w &&& 0xFF00FFFF#32 = 0x03000000#32) ∧
    ((∃ d a, decode w = .legal (.twice d a)) ↔ w &&& 0xFF00FFFF#32 = 0x04000000#32) ∧
    ((∃ d a, decode w = .legal (.half d a)) ↔ w &&& 0xFF00FFFF#32 = 0x05000000#32) ∧
    ((∃ d a b, decode w = .legal (.mul d a b)) ↔ w &&& 0xFF000FFF#32 = 0x06000000#32) ∧
    ((∃ d a, decode w = .legal (.sqr d a)) ↔ w &&& 0xFF00FFFF#32 = 0x07000000#32) ∧
    ((∃ d a n, decode w = .legal (.sqrn d a n)) ↔
      w &&& 0xFF00F000#32 = 0x08000000#32 ∧ w.extractLsb' 0 12 ≠ 0#12) ∧
    ((∃ d a, decode w = .legal (.addone d a)) ↔ w &&& 0xFF00FFFF#32 = 0x09000000#32) ∧
    ((∃ d, decode w = .legal (.reduce d)) ↔ w &&& 0xFF0FFFFF#32 = 0x0A000000#32) ∧
    ((∃ d a, decode w = .legal (.red32 d a)) ↔ w &&& 0xFF00FFFF#32 = 0x0B000000#32) ∧
    ((∃ d a, decode w = .legal (.canon d a)) ↔ w &&& 0xFF00FFFF#32 = 0x0C000000#32)

/-- R66: the number of legal words is 1062416. -/
def Obligations.LegalWordCount : Prop :=
  ∃ l : List Word, l.Nodup ∧ (∀ w, w ∈ l ↔ ∃ i, decode w = .legal i) ∧ l.length = 1062416

/-! ## Host accesses, the exception and reset -/

/-- R44: a write to CMD runs the command its word decodes to, on the state with that write taken off the host's list; an
illegal word raises IllegalCommand there. -/
def Obligations.StepRunsDecodedInstruction : Prop :=
  ∀ (s : State) (w : Word) (l : List HostEvent), s.pending = .write 0x91#8 w :: l →
    (∀ i, decode w = .legal i → step s = exec i { s with pending := l }) ∧
    (∀ why, decode w = .illegal why → step s = .next ({ s with pending := l } : State).raiseIllegal)

/-- R42: what a host read returns at each address, and that it changes nothing of the engine. The value of a field word is
stated where it is defined; that a read of an undefined one, to which R42 and R32 give no meaning, completes, returns some
word and leaves the engine as it was is the model's choice (notes/assumptions/1.md). STATUS is returned whole; its bits
31:1 are zero in every state that meets State.Inv (ResetMeetsInvariant, StepKeepsInvariant). -/
def Obligations.HostReadReturnsMappedWord : Prop :=
  ∀ (s : State) (a : Addr) (l : List HostEvent), s.pending = .read a :: l →
    ∃ t v, step s = .next t ∧ t.returned = s.returned ++ [v] ∧ t.pending = l ∧ SameEngine s t ∧
      (∀ (i : RegNum) (k : Fin 8), a.toNat = 8 * i.val + k.val → s.wordDefined i k = true → v = (s.reg i)[k]) ∧
      (0x80 ≤ a.toNat ∧ a.toNat ≤ 0x8F → v = 0#32) ∧
      (a.toNat = 0x90 → v = s.carry) ∧
      (a.toNat = 0x91 → v = 0#32) ∧
      (a.toNat = 0x92 → v = s.status) ∧
      (0x93 ≤ a.toNat → v = 0#32)

/-- R43: what a host write does at each address. -/
def Obligations.HostWriteStoresMappedWord : Prop :=
  ∀ (s : State) (a : Addr) (v : Word) (l : List HostEvent), s.pending = .write a v :: l →
    (∀ (i : RegNum) (k : Fin 8), a.toNat = 8 * i.val + k.val →
      ∃ t, step s = .next t ∧ (t.reg i)[k] = v ∧ t.wordDefined i k = true ∧
        (∀ (j : RegNum) (m : Fin 8), ¬ (j = i ∧ m = k) →
          (t.reg j)[m] = (s.reg j)[m] ∧ t.wordDefined j m = s.wordDefined j m) ∧
        t.xx = s.xx ∧ t.xxDef = s.xxDef ∧ t.carry = s.carry ∧ t.status = s.status) ∧
    (∀ k : Fin 16, a.toNat = 0x80 + k.val →
      ∃ t, step s = .next t ∧ t.xx[k] = v ∧ t.xxDef[k] = true ∧
        (∀ m : Fin 16, m ≠ k → t.xx[m] = s.xx[m] ∧ t.xxDef[m] = s.xxDef[m]) ∧
        t.f = s.f ∧ t.fDef = s.fDef ∧ t.carry = s.carry ∧ t.status = s.status) ∧
    (a.toNat = 0x90 → ∃ t, step s = .next t ∧ t.carry = v ∧ t.f = s.f ∧ t.fDef = s.fDef ∧ t.xx = s.xx ∧
        t.xxDef = s.xxDef ∧ t.status = s.status) ∧
    (a.toNat = 0x91 → step s = issue v { s with pending := l }) ∧
    (0x92 ≤ a.toNat → step s = .next { s with pending := l })

/-- R49 (2), (3), for a read just after the write: a read of a field word or of CARRY returns the word the host wrote
with its event just before, and a read of a word of a command's destination just after the command returns that word of
the command's result. ReadReturnsLastWriteLater has other events in between. That a command with an undefined source
completes and its destination reads as what it left is the model's choice (notes/assumptions/1.md). -/
def Obligations.ReadReturnsLastWrite : Prop :=
  (∀ (s : State) (a : Addr) (v : Word) (l : List HostEvent), s.pending = .write a v :: .read a :: l →
    a.toNat < 0x80 ∨ a.toNat = 0x90 →
    ∃ t u, step s = .next t ∧ step t = .next u ∧ u.returned = s.returned ++ [v]) ∧
  (∀ (s : State) (w : Word) (i : Instr) (k : Fin 8) (l : List HostEvent), decode w = .legal i →
    s.pending = .write 0x91#8 w :: .read (fieldAddr (destination i) k) :: l →
    ∃ t u, exec i { s with pending := .read (fieldAddr (destination i) k) :: l } = .next t ∧
      step s = .next t ∧ step t = .next u ∧ u.returned = s.returned ++ [(t.reg (destination i))[k]])

/-- R131: an illegal word sets STATUS.ILL and changes nothing else of the engine. -/
def Obligations.IllegalCommandSetsOnlyIll : Prop :=
  ∀ (s : State) (w : Word) (l : List HostEvent), s.pending = .write 0x91#8 w :: l → (¬ ∃ i, decode w = .legal i) →
    ∃ t, step s = .next t ∧ t.ill = true ∧ (∀ j : Fin 32, j.val ≠ 0 → t.status.getLsbD j.val = s.status.getLsbD j.val) ∧
      t.f = s.f ∧ t.fDef = s.fDef ∧ t.xx = s.xx ∧ t.xxDef = s.xxDef ∧ t.carry = s.carry ∧ t.pending = l

/-- R132: ILL stays 1 under every event but reset, reset clears it, and a legal command runs as it would with ILL at 0:
the same next state but for STATUS, which it leaves as it was. Outside the command's precondition that rests on the
model's choices: an undefined source lets the command complete (notes/assumptions/1.md), and the two runs' free values are
equal because their draw counters are (notes/assumptions/2.md), where the spec promises nothing of UNSPEC256. -/
def Obligations.IllIsSticky : Prop :=
  ∀ s : State, s.ill = true →
    (∀ t, step s = .next t → (∀ l, s.pending ≠ .reset :: l) → t.ill = true) ∧
    (∀ t l, step s = .next t → s.pending = .reset :: l → t.ill = false) ∧
    (∀ (i : Instr) (w : Word) (l : List HostEvent), s.pending = .write 0x91#8 w :: l → decode w = .legal i →
      ∃ t, step { s with status := 0#32 } = .next t ∧ step s = .next { t with status := s.status })

/-- R26, R131: ILL becomes 1 only by an illegal word written to CMD. -/
def Obligations.OnlyIllegalWordRaisesIll : Prop :=
  ∀ s t : State, step s = .next t → s.ill = false → t.ill = true →
    ∃ w l why, s.pending = .write 0x91#8 w :: l ∧ decode w = .illegal why

/-- R33: CARRY and STATUS are zero after reset, and no word of F or of XX is defined. -/
def Obligations.ResetValues : Prop :=
  State.reset.carry = 0x00000000#32 ∧ State.reset.status = 0x00000000#32 ∧ State.reset.ill = false ∧
  (∀ (i : RegNum) (k : Fin 8), State.reset.wordDefined i k = false) ∧ (∀ k : Fin 16, State.reset.xxDef[k] = false)

/-- R150: the reset event leaves the state of R33; it is the only event that clears ILL and the only one that makes a
word undefined again. -/
def Obligations.ResetEvent : Prop :=
  (∀ (s : State) (l : List HostEvent), s.pending = .reset :: l →
    ∃ t, step s = .next t ∧ t.carry = 0#32 ∧ t.status = 0#32 ∧ (∀ i k, t.wordDefined i k = false) ∧
      (∀ k : Fin 16, t.xxDef[k] = false) ∧ t.pending = l) ∧
  (∀ s t : State, step s = .next t → (∀ l, s.pending ≠ .reset :: l) →
    (s.ill = true → t.ill = true) ∧ (∀ i k, s.wordDefined i k = true → t.wordDefined i k = true) ∧
    (∀ k : Fin 16, s.xxDef[k] = true → t.xxDef[k] = true))

/-! ## Whole-machine rules -/

/-- R130, R154: a step always has a next state, whose list of events is the old one without its first; a command always
has one. That this holds for a command with an undefined source and for a read of an undefined word is the model's choice
(notes/assumptions/1.md), as it is for the term SQRN with count 0, which no word decodes to (notes/assumptions/9.md), and
for a step with no event to come (notes/assumptions/4.md). -/
def Obligations.StepTakesOneEvent : Prop :=
  (∀ s : State, ∃ t, step s = .next t ∧ t.pending = s.pending.tail) ∧
  (∀ (i : Instr) (s : State), ∃ t, exec i s = .next t ∧ t.pending = s.pending)

/-- R24, R25, R30, R100 (4), R132: the frame of the twelve commands ADD, SUB, NEG, TWICE, HALF, MUL, SQR, SQRN, ADDONE,
REDUCE, RED32, CANON: every field register but the destination, its defined flags, XX, CARRY, STATUS and the host's side
are as before, and the destination is defined. The engine has no memory. That this frame and the defined destination hold
for a command with an undefined source, to which R32 gives no meaning, is the model's choice (notes/assumptions/1.md). -/
def Obligations.CommandFrame : Prop :=
  ∀ (i : Instr) (s t : State), i.wellFormed = true → exec i s = .next t →
    KeepsAllBut (destination i) s t ∧ (∀ k, t.wordDefined (destination i) k = true)

/-- R23: after a command whose precondition held its destination is canonical; host writes are not checked. -/
def Obligations.ResultsAreCanonical : Prop :=
  (∀ (i : Instr) (s t : State), i.wellFormed = true → ready i s = true → exec i s = .next t →
    val (t.reg (destination i)) < Config.prime) ∧
  (∀ (s : State) (i : RegNum) (k : Fin 8) (v : Word) (l : List HostEvent), s.pending = .write (fieldAddr i k) v :: l →
    ∃ t, step s = .next t ∧ (t.reg i)[k] = v)

/-- R24, R25: no command and no read writes XX or CARRY; only a host write to their addresses, or reset, does. -/
def Obligations.OnlyHostWritesXXAndCarry : Prop :=
  ∀ s t : State, step s = .next t → (∀ l, s.pending ≠ .reset :: l) →
    ((∀ a v l, s.pending = .write a v :: l → ¬ (0x80 ≤ a.toNat ∧ a.toNat ≤ 0x8F)) → t.xx = s.xx ∧ t.xxDef = s.xxDef) ∧
    ((∀ v l, s.pending ≠ .write 0x90#8 v :: l) → t.carry = s.carry)

/-- R32: between resets a field word is defined after a step exactly when it was before, or the host wrote that word, or
a legal command had its register as destination. That a command with an undefined source completes, and so defines its
destination and nothing else, is the model's choice (notes/assumptions/1.md). -/
def Obligations.WordsBecomeDefined : Prop :=
  ∀ s t : State, step s = .next t → (∀ l, s.pending ≠ .reset :: l) → ∀ (i : RegNum) (k : Fin 8),
    (t.wordDefined i k = true ↔ s.wordDefined i k = true ∨
      (∃ v l, s.pending = .write (fieldAddr i k) v :: l) ∨
      (∃ w l c, s.pending = .write 0x91#8 w :: l ∧ decode w = .legal c ∧ destination c = i))

/-- R30: a command's result depends only on the command, its source registers, and for RED32 on CARRY and for REDUCE on
XX: two states in which those agree and the precondition holds give the same result. -/
def Obligations.ResultDependsOnNamedStateOnly : Prop :=
  ∀ (i : Instr) (s s' t t' : State), i.wellFormed = true → ready i s = true → ready i s' = true →
    (match i with
      | .add _ a b | .sub _ a b | .mul _ a b => s'.reg a = s.reg a ∧ s'.reg b = s.reg b
      | .neg _ a | .twice _ a | .half _ a | .sqr _ a | .sqrn _ a _ | .addone _ a | .canon _ a => s'.reg a = s.reg a
      | .reduce _ => s'.xx = s.xx
      | .red32 _ a => s'.reg a = s.reg a ∧ s'.carry = s.carry) →
    exec i s = .next t → exec i s' = .next t' → t'.reg (destination i) = t.reg (destination i)

/-- The invariant holds right after reset. The zero under an undefined word is the model's choice
(notes/assumptions/1.md). -/
def Obligations.ResetMeetsInvariant : Prop := State.reset.Inv

/-- R26, R32: every step keeps the invariant: STATUS bits 31:1 stay zero, and a word that is not defined stays stored as
zero. The second clause is the model's choice (notes/assumptions/1.md). -/
def Obligations.StepKeepsInvariant : Prop :=
  ∀ s t : State, s.Inv → step s = .next t → t.Inv

/-! ## The reduction at word level -/

/-- R81: the fixed procedure gives the printed matrix, each row is congruent to 2^(32i), and the column sums are the
matrix read by columns. -/
def Obligations.ReductionMatrix : Prop :=
  (∀ k : Fin 8, foldUnit (8 + k.val) = (coefficientRow k).toList) ∧
  (∀ k : Fin 8, ((2 : Int) ^ 256 * 2 ^ (32 * k.val) - ∑ j : Fin 8, (coefficientRow k)[j] * 2 ^ (32 * j.val))
    % (Config.prime : Int) = 0) ∧
  (∀ (xx : WideVec) (j : Fin 8), (columnSums xx)[j]
    = ∑ k : Fin 8, ((xx[8 + k.val]).toNat : Int) * (coefficientRow k)[j])

/-- R82: what `combine` returns, exactly and modulo p. -/
def Obligations.CombineValue : Prop :=
  ∀ xx : WideVec,
    (val (combine xx).1 : Int) + (combine xx).2 * 2 ^ 256
      = (val (lowWords xx) : Int)
        + ∑ k : Fin 8, ((xx[8 + k.val]).toNat : Int) * ∑ j : Fin 8, (coefficientRow k)[j] * 2 ^ (32 * j.val) ∧
    ((val (combine xx).1 : Int) + (combine xx).2 * 2 ^ 256) % Config.prime = (val xx : Int) % Config.prime

/-- R83: for every 16-word input the final carry of `combine` is between -4 and 4. -/
def Obligations.CombineCarryBounds : Prop :=
  ∀ xx : WideVec, -4 ≤ (combine xx).2 ∧ (combine xx).2 ≤ 4

/-- R84: `addPInvTo` adds PInv modulo 2^256, and in the two cases it is called in that subtracts p from the true value. -/
def Obligations.AddPInvToValue : Prop :=
  ∀ z : FieldVec, addPInvTo z = words 8 ((val z + Config.primeInv) % 2 ^ 256) ∧
    (val z + 2 ^ 256 < 2 * Config.prime → val (addPInvTo z) = val z + 2 ^ 256 - Config.prime) ∧
    (Config.prime ≤ val z → val (addPInvTo z) = val z - Config.prime ∧ val (addPInvTo z) < Config.primeInv)

/-- R85: `subPInvFrom` subtracts PInv modulo 2^256, and where a borrow was taken that adds p to the true value. -/
def Obligations.SubPInvFromValue : Prop :=
  ∀ z : FieldVec, subPInvFrom z = words 8 (((val z : Int) - Config.primeInv) % 2 ^ 256).toNat ∧
    (-(Config.prime : Int) ≤ (val z : Int) - 2 ^ 256 →
      (val (subPInvFrom z) : Int) = (val z : Int) - 2 ^ 256 + Config.prime ∧ val (subPInvFrom z) < Config.prime)

/-- R86: the correction after an addition-like step returns the true value modulo p. -/
def Obligations.CorrectUpValue : Prop :=
  ∀ (z : FieldVec) (c : Nat), c ≤ 1 → val z + c * 2 ^ 256 < 2 * Config.prime →
    correctUp z c = words 8 ((val z + c * 2 ^ 256) % Config.prime)

/-- R87: `reduce32` returns the canonical residue of z + c * 2^256 for every z and every 32-bit signed c; with c = 0 it
is the correction alone. -/
def Obligations.Reduce32Value : Prop :=
  ∀ (z : FieldVec) (c : Int), -2 ^ 31 ≤ c → c ≤ 2 ^ 31 - 1 →
    reduce32 c z = words 8 (((val z : Int) + c * 2 ^ 256) % Config.prime).toNat ∧
    val (reduce32 c z) < Config.prime ∧ reduce32 0 z = correctUp z 0

/-- R88: `reduce` returns the canonical residue of every 16-word input. -/
def Obligations.ReduceValue : Prop :=
  ∀ xx : WideVec, reduce xx = words 8 (val xx % Config.prime) ∧ val (reduce xx) < Config.prime

/-- R123: the product of canonical values fits the accumulator and meets `reduce`'s bound; (p-1)^2 as 16 words. -/
def Obligations.ProductBound : Prop :=
  (∀ a b : FieldVec, val a < Config.prime → val b < Config.prime →
    val a * val b ≤ (Config.prime - 1) ^ 2 ∧ val (mul8x8to16 a b) = val a * val b) ∧
  (Config.prime - 1) ^ 2 < Config.prime ^ 2 ∧ Config.prime ^ 2 < 2 ^ 256 * 2 ^ 256 ∧
  words 16 ((Config.prime - 1) ^ 2) =
    #v[0x00000004#32, 0x00000000#32, 0x00000000#32, 0xFFFFFFFC#32, 0xFFFFFFFF#32, 0xFFFFFFFF#32, 0xFFFFFFFC#32,
       0x00000003#32, 0xFFFFFFFC#32, 0x00000001#32, 0xFFFFFFFE#32, 0x00000001#32, 0x00000001#32, 0xFFFFFFFE#32,
       0x00000002#32, 0xFFFFFFFE#32]

/-! ## The commands' results -/

/-- R100: the six additive commands ADD, SUB, NEG, TWICE, HALF, ADDONE always complete, change nothing but the
destination, leave a canonical result from defined canonical sources, and UNSPEC256 where the sources are defined and one
is not canonical. That they complete, change nothing else and define the destination also where a source is undefined, of
which R100 and R32 say nothing, is the model's choice (notes/assumptions/1.md). -/
def Obligations.AdditiveCommonRules : Prop :=
  ∀ (i : Instr) (s : State), isAdditive i = true →
    ∃ t, exec i s = .next t ∧ KeepsAllBut (destination i) s t ∧ t.regDefined (destination i) = true ∧
      ((∀ r ∈ canonicalSources i, s.CanonicalSource r) → val (t.reg (destination i)) < Config.prime) ∧
      ((∀ r ∈ canonicalSources i, s.regDefined r = true) →
        (∃ r ∈ canonicalSources i, Config.prime ≤ val (s.reg r)) →
        t.reg (destination i) = Config.unspec256 s.draws)

/-- R101: ADD leaves (a + b) mod p. -/
def Obligations.AddResult : Prop :=
  ∀ (s : State) (rd rs1 rs2 : RegNum), s.CanonicalSource rs1 → s.CanonicalSource rs2 →
    Leaves (.add rd rs1 rs2) s ((val (s.reg rs1) + val (s.reg rs2)) % Config.prime)

/-- R102: SUB leaves (a - b) mod p. -/
def Obligations.SubResult : Prop :=
  ∀ (s : State) (rd rs1 rs2 : RegNum), s.CanonicalSource rs1 → s.CanonicalSource rs2 →
    Leaves (.sub rd rs1 rs2) s (((val (s.reg rs1) : Int) - val (s.reg rs2)) % Config.prime).toNat

/-- R103: NEG leaves 0 for 0 and p - a else. -/
def Obligations.NegResult : Prop :=
  ∀ (s : State) (rd rs1 : RegNum), s.CanonicalSource rs1 →
    Leaves (.neg rd rs1) s (if val (s.reg rs1) = 0 then 0 else Config.prime - val (s.reg rs1))

/-- R104: TWICE leaves 2a mod p. -/
def Obligations.TwiceResult : Prop :=
  ∀ (s : State) (rd rs1 : RegNum), s.CanonicalSource rs1 →
    Leaves (.twice rd rs1) s ((2 * val (s.reg rs1)) % Config.prime)

/-- R105: HALF leaves a/2 for an even a and (a + p)/2 for an odd one, which is the one canonical r with 2r ≡ a. -/
def Obligations.HalfResult : Prop :=
  ∀ (s : State) (rd rs1 : RegNum), s.CanonicalSource rs1 →
    Leaves (.half rd rs1) s
      (if val (s.reg rs1) % 2 = 0 then val (s.reg rs1) / 2 else (val (s.reg rs1) + Config.prime) / 2) ∧
    (∀ r, r < Config.prime → ((2 * r) % Config.prime = val (s.reg rs1) ↔
      r = if val (s.reg rs1) % 2 = 0 then val (s.reg rs1) / 2 else (val (s.reg rs1) + Config.prime) / 2))

/-- R106: ADDONE leaves (a + 1) mod p. -/
def Obligations.AddoneResult : Prop :=
  ∀ (s : State) (rd rs1 : RegNum), s.CanonicalSource rs1 →
    Leaves (.addone rd rs1) s ((val (s.reg rs1) + 1) % Config.prime)

/-- R120: MUL leaves (a * b) mod p, and UNSPEC256 where its sources are defined and one is not canonical. -/
def Obligations.MulResult : Prop :=
  ∀ (s : State) (rd rs1 rs2 : RegNum), s.regDefined rs1 = true → s.regDefined rs2 = true →
    (val (s.reg rs1) < Config.prime ∧ val (s.reg rs2) < Config.prime →
      Leaves (.mul rd rs1 rs2) s ((val (s.reg rs1) * val (s.reg rs2)) % Config.prime)) ∧
    (Config.prime ≤ val (s.reg rs1) ∨ Config.prime ≤ val (s.reg rs2) →
      Leaves (.mul rd rs1 rs2) s (val (Config.unspec256 s.draws)))

/-- R121: SQR leaves a^2 mod p, and UNSPEC256 where its source is defined and not canonical. -/
def Obligations.SqrResult : Prop :=
  ∀ (s : State) (rd rs1 : RegNum), s.regDefined rs1 = true →
    (val (s.reg rs1) < Config.prime → Leaves (.sqr rd rs1) s (val (s.reg rs1) ^ 2 % Config.prime)) ∧
    (Config.prime ≤ val (s.reg rs1) → Leaves (.sqr rd rs1) s (val (Config.unspec256 s.draws)))

/-- R122: SQRN leaves a^(2^n) mod p for a count n of at least 1, and UNSPEC256 where its source is defined and not
canonical; a word with op 0x08 and count 0 is no command: it has an illegal word's effect (R66 (c)). -/
def Obligations.SqrnResult : Prop :=
  (∀ (s : State) (rd rs1 : RegNum) (n : BitVec 12), n ≠ 0 → s.regDefined rs1 = true →
    (val (s.reg rs1) < Config.prime → Leaves (.sqrn rd rs1 n) s (val (s.reg rs1) ^ 2 ^ n.toNat % Config.prime)) ∧
    (Config.prime ≤ val (s.reg rs1) → Leaves (.sqrn rd rs1 n) s (val (Config.unspec256 s.draws)))) ∧
  (∀ (s : State) (w : Word) (l : List HostEvent), s.pending = .write 0x91#8 w :: l → w.toNat / 2 ^ 24 = 0x08 →
    w.toNat % 2 ^ 12 = 0 → step s = .next ({ s with pending := l } : State).raiseIllegal)

/-- R89: REDUCE leaves val(XX) mod p below p^2, and at or above p^2 a free value; all of XX defined. -/
def Obligations.ReduceResult : Prop :=
  ∀ (s : State) (rd : RegNum), s.xxDefined = true →
    (val s.xx < Config.prime ^ 2 → Leaves (.reduce rd) s (val s.xx % Config.prime)) ∧
    (Config.prime ^ 2 ≤ val s.xx → Leaves (.reduce rd) s (val (Config.unspec256 s.draws)))

/-- R90: RED32 leaves (a + c * 2^256) mod p for every 256-bit a and c = sext_32(CARRY). -/
def Obligations.Red32Result : Prop :=
  ∀ (s : State) (rd rs1 : RegNum), s.regDefined rs1 = true →
    Leaves (.red32 rd rs1) s (((val (s.reg rs1) : Int) + s.carry.toInt * 2 ^ 256) % Config.prime).toNat

/-- R91: CANON leaves a mod p for every 256-bit a: p is subtracted once where a >= p. CARRY is not read: the result is
that of RED32 with a carry of zero. -/
def Obligations.CanonResult : Prop :=
  ∀ (s : State) (rd rs1 : RegNum), s.regDefined rs1 = true →
    Leaves (.canon rd rs1) s (val (s.reg rs1) % Config.prime) ∧
    Leaves (.canon rd rs1) s
      (if Config.prime ≤ val (s.reg rs1) then val (s.reg rs1) - Config.prime else val (s.reg rs1)) ∧
    (∃ t t', exec (.canon rd rs1) s = .next t ∧ exec (.red32 rd rs1) { s with carry := 0#32 } = .next t' ∧
      t.reg rd = t'.reg rd)

/-- R89, R100 (2), R120 to R122: a command one of whose sources does not meet its precondition completes; its destination
is defined and holds a free value. That an undefined source gives this too is the model's choice
(notes/assumptions/1.md). -/
def Obligations.UnusableSourceCompletes : Prop :=
  ∀ (i : Instr) (s : State), i.wellFormed = true → ready i s = false →
    ∃ t, exec i s = .next t ∧ t.reg (destination i) = Config.unspec256 s.draws ∧
      t.regDefined (destination i) = true ∧ t.draws = s.draws + 1

/-- R132, R151: a safe event draws no free value and leaves ILL at 0 where it was 0, and what it leaves in the registers
does not depend on how many free values were drawn before. -/
def Obligations.SafeStepDrawsNothing : Prop :=
  ∀ s t : State, s.nextSafe = true → step s = .next t →
    t.draws = s.draws ∧ (s.ill = false → t.ill = false) ∧
    (∀ d : Nat, step { s with draws := d } = .next { t with draws := d })

/-! ## Laws -/

/-- R107: the laws of the additive commands on canonical values. -/
def Obligations.AdditiveLaws : Prop :=
  ∀ a b : FieldVec, val a < Config.prime → val b < Config.prime →
    (val (modAdd a b) < Config.prime ∧ val (modSub a b) < Config.prime ∧ val (modNeg a) < Config.prime ∧
      val (modTwice a) < Config.prime ∧ val (modHalf a) < Config.prime ∧ val (modAddOne a) < Config.prime) ∧
    modAdd a (modNeg a) = words 8 0 ∧ modAdd a (words 8 0) = a ∧
    modTwice a = modAdd a a ∧
    modTwice (modHalf a) = a ∧
    modSub a b = modAdd a (modNeg b) ∧ modHalf (modTwice a) = a ∧ modAddOne a = modAdd a (words 8 1) ∧
    modNeg (modNeg a) = a

/-- R124: laws of the multiplicative commands on canonical values. -/
def Obligations.MultiplicativeLaws : Prop :=
  ∀ a b c : FieldVec, val a < Config.prime → val b < Config.prime → val c < Config.prime →
    val (modMul a b) < Config.prime ∧ modMul a a = modSqr a ∧
    modMul a b = modMul b a ∧ modMul (modMul a b) c = modMul a (modMul b c) ∧
    modMul a (modAdd b c) = modAdd (modMul a b) (modMul a c) ∧
    modMul a (words 8 1) = a ∧ modMul a (words 8 0) = words 8 0 ∧ modTwice a = modMul a (words 8 2)

/-- R122: SQRN with count 1 leaves what SQR leaves, and SQRN m then SQRN k in place leave what SQRN m + k leaves. -/
def Obligations.SqrnComposes : Prop :=
  ∀ (s : State) (rd rs1 : RegNum) (m k : Nat), s.CanonicalSource rs1 → 1 ≤ m → 1 ≤ k → m + k ≤ 4095 →
    ∃ t u v w x, exec (.sqrn rd rs1 (BitVec.ofNat 12 m)) s = .next t ∧ exec (.sqrn rd rd (BitVec.ofNat 12 k)) t = .next u ∧
      exec (.sqrn rd rs1 (BitVec.ofNat 12 (m + k))) s = .next v ∧ u.reg rd = v.reg rd ∧
      exec (.sqrn rd rs1 1) s = .next w ∧ exec (.sqr rd rs1) s = .next x ∧ w = x

/-! ## Runs of several events -/

/-- R49 (2), (3): a read of a field word or of CARRY returns the word last written to it, whatever events stand between
the write and the read, so long as none of them touches the word; the write is the host's or a legal command's. That a
command with an undefined source, here or in between, completes and changes its destination only, and that a read of an
undefined word in between changes nothing, are the model's choices (notes/assumptions/1.md). -/
def Obligations.ReadReturnsLastWriteLater : Prop :=
  (∀ (s : State) (a : Addr) (v : Word) (mid l : List HostEvent), s.pending = .write a v :: (mid ++ .read a :: l) →
    a.toNat < 0x80 ∨ a.toNat = 0x90 → (∀ e ∈ mid, touches a e = false) →
    ∃ t u, runSteps (mid.length + 1) s = .next t ∧ t.pending = .read a :: l ∧ step t = .next u ∧
      u.returned = t.returned ++ [v]) ∧
  (∀ (s r : State) (w : Word) (i : Instr) (k : Fin 8) (mid l : List HostEvent), decode w = .legal i →
    s.pending = .write 0x91#8 w :: (mid ++ .read (fieldAddr (destination i) k) :: l) →
    (∀ e ∈ mid, touches (fieldAddr (destination i) k) e = false) → step s = .next r →
    ∃ t u, runSteps (mid.length + 1) s = .next t ∧ t.pending = .read (fieldAddr (destination i) k) :: l ∧
      step t = .next u ∧ u.returned = t.returned ++ [(r.reg (destination i))[k]])

/-- A step with no event to come leaves the state as it was: the model's form of an idle engine
(notes/assumptions/4.md); R20 gives the engine no step of its own. -/
def Obligations.IdleStepHoldsState : Prop :=
  ∀ s : State, s.pending = [] → step s = .next s
end

