-- ==== Sys2Proof/Laws/Decode.lean ====
section
/-! SUPPORT. The command word's fields as numbers, and that packing fields and reading them back are inverse
(spec/30_encoding.md R61, R65). -/

namespace Sys2Proof.Field

theorem op_toNat (w : Word) : (op w).toNat = w.toNat / 2 ^ 24 := by
  have := w.isLt
  rw [op, BitVec.extractLsb'_toNat, Nat.shiftRight_eq_div_pow]
  omega

theorem rdBits_toNat (w : Word) : (rdBits w).toNat = w.toNat / 2 ^ 20 % 16 := by
  rw [rdBits, BitVec.extractLsb'_toNat, Nat.shiftRight_eq_div_pow]

theorem rs1Bits_toNat (w : Word) : (rs1Bits w).toNat = w.toNat / 2 ^ 16 % 16 := by
  rw [rs1Bits, BitVec.extractLsb'_toNat, Nat.shiftRight_eq_div_pow]

theorem rs2Bits_toNat (w : Word) : (rs2Bits w).toNat = w.toNat / 2 ^ 12 % 16 := by
  rw [rs2Bits, BitVec.extractLsb'_toNat, Nat.shiftRight_eq_div_pow]

theorem imm_toNat (w : Word) : (imm w).toNat = w.toNat % 2 ^ 12 := by
  rw [imm, BitVec.extractLsb'_toNat, Nat.shiftRight_zero]

theorem toNat_append_eq {m n : Nat} (x : BitVec m) (y : BitVec n) : (x ++ y).toNat = x.toNat * 2 ^ n + y.toNat := by
  rw [BitVec.toNat_append, ← Nat.shiftLeft_add_eq_or_of_lt y.isLt, Nat.shiftLeft_eq]

/-- "w = op << 24 | rd << 20 | rs1 << 16 | rs2 << 12 | imm" (R68). -/
theorem pack_toNat (o : BitVec 8) (d a b : BitVec 4) (n : BitVec 12) :
    (pack o d a b n).toNat
      = o.toNat * 2 ^ 24 + d.toNat * 2 ^ 20 + a.toNat * 2 ^ 16 + b.toNat * 2 ^ 12 + n.toNat := by
  unfold pack
  simp only [toNat_append_eq]
  ring

theorem op_pack (o : BitVec 8) (d a b : BitVec 4) (n : BitVec 12) : op (pack o d a b n) = o := by
  apply BitVec.eq_of_toNat_eq
  rw [op_toNat, pack_toNat]
  omega

theorem rdBits_pack (o : BitVec 8) (d a b : BitVec 4) (n : BitVec 12) : rdBits (pack o d a b n) = d := by
  apply BitVec.eq_of_toNat_eq
  rw [rdBits_toNat, pack_toNat]
  omega

theorem rs1Bits_pack (o : BitVec 8) (d a b : BitVec 4) (n : BitVec 12) : rs1Bits (pack o d a b n) = a := by
  apply BitVec.eq_of_toNat_eq
  rw [rs1Bits_toNat, pack_toNat]
  omega

theorem rs2Bits_pack (o : BitVec 8) (d a b : BitVec 4) (n : BitVec 12) : rs2Bits (pack o d a b n) = b := by
  apply BitVec.eq_of_toNat_eq
  rw [rs2Bits_toNat, pack_toNat]
  omega

theorem imm_pack (o : BitVec 8) (d a b : BitVec 4) (n : BitVec 12) : imm (pack o d a b n) = n := by
  apply BitVec.eq_of_toNat_eq
  rw [imm_toNat, pack_toNat]
  omega

/-- A word is its fields. -/
theorem pack_fields (w : Word) : pack (op w) (rdBits w) (rs1Bits w) (rs2Bits w) (imm w) = w := by
  apply BitVec.eq_of_toNat_eq
  rw [pack_toNat, op_toNat, rdBits_toNat, rs1Bits_toNat, rs2Bits_toNat, imm_toNat]
  omega

theorem ofReg_reg (b : BitVec 4) : ofReg (reg b) = b := by
  apply BitVec.eq_of_toNat_eq
  simp [ofReg, reg]

theorem ofReg_toNat (r : RegNum) : (ofReg r).toNat = r.val := by
  have := r.isLt
  simp [ofReg]

theorem reg_ofReg (r : RegNum) : reg (ofReg r) = r := Fin.ext (ofReg_toNat r)

theorem append_and_append {m n : Nat} (x y : BitVec m) (u v : BitVec n) :
    (x ++ u) &&& (y ++ v) = (x &&& y) ++ (u &&& v) := by
  ext i
  simp [BitVec.getElem_append]

/-- Masking a word masks its fields. -/
theorem pack_and_pack (o o' : BitVec 8) (d a b d' a' b' : BitVec 4) (n n' : BitVec 12) :
    pack o d a b n &&& pack o' d' a' b' n' = pack (o &&& o') (d &&& d') (a &&& a') (b &&& b') (n &&& n') := by
  unfold pack
  rw [append_and_append, append_and_append, append_and_append, append_and_append]

end Sys2Proof.Field
end

