-- ==== Sys2Proof/Laws/Words.lean ====
section
/-! SUPPORT. Word vectors against the integers they stand for, and what each kernel primitive returns
(spec/00_scope.md R6, R8 to R14). Later proofs cite these and unfold neither `words` nor a primitive. -/

namespace Sys2Proof.Machine

/-! ## `val` and `words` are inverse -/

theorem valList_lt (l : List Word) : valList l < 2 ^ (32 * l.length) := by
  induction l with
  | nil => simp [valList]
  | cons w ws ih =>
    have hw := w.isLt
    have : 2 ^ (32 * (w :: ws).length) = 2 ^ 32 * 2 ^ (32 * ws.length) := by
      rw [← Nat.pow_add]; congr 1; simp [List.length_cons]; omega
    rw [this, valList]
    have h1 : valList ws + 1 ≤ 2 ^ (32 * ws.length) := ih
    calc w.toNat + 2 ^ 32 * valList ws < 2 ^ 32 + 2 ^ 32 * valList ws := by omega
      _ = 2 ^ 32 * (valList ws + 1) := by ring
      _ ≤ 2 ^ 32 * 2 ^ (32 * ws.length) := Nat.mul_le_mul_left _ h1

theorem valList_wordList (n v : Nat) : valList (wordList n v) = v % 2 ^ (32 * n) := by
  induction n generalizing v with
  | zero => simp [wordList, valList, Nat.mod_one]
  | succ n ih =>
    have : 2 ^ (32 * (n + 1)) = 2 ^ 32 * 2 ^ (32 * n) := by
      rw [← Nat.pow_add]; congr 1; omega
    rw [this, wordList, valList, ih, BitVec.toNat_ofNat, Nat.mod_mul]

theorem wordList_valList (l : List Word) : wordList l.length (valList l) = l := by
  induction l with
  | nil => rfl
  | cons w ws ih =>
    have hw := w.isLt
    have h1 : (w.toNat + 2 ^ 32 * valList ws) / 2 ^ 32 = valList ws := by omega
    have h2 : BitVec.ofNat 32 (w.toNat + 2 ^ 32 * valList ws) = w := by
      apply BitVec.eq_of_toNat_eq
      rw [BitVec.toNat_ofNat]; omega
    simp only [List.length_cons, valList, wordList, h1, h2, ih]

theorem val_words (n v : Nat) : val (words n v) = v % 2 ^ (32 * n) := valList_wordList n v

theorem val_lt {n : Nat} (x : WordVec n) : val x < 2 ^ (32 * n) := by
  have := valList_lt x.toList
  rwa [Vector.length_toList] at this

theorem val_lt8 (x : FieldVec) : val x < 2 ^ 256 := val_lt x

theorem val_words8 (v : Nat) : val (words 8 v) = v % 2 ^ 256 := val_words 8 v

theorem val_words8_of_lt {v : Nat} (h : v < 2 ^ 256) : val (words 8 v) = v := by
  rw [val_words8, Nat.mod_eq_of_lt h]

theorem two_pow_wide : (2 : Nat) ^ (32 * 16) = 2 ^ 256 * 2 ^ 256 := by
  rw [show 32 * 16 = 256 + 256 from rfl, Nat.pow_add]

theorem val_lt16 (x : WideVec) : val x < 2 ^ 256 * 2 ^ 256 := by
  have h : val x < 2 ^ (32 * 16) := val_lt x
  rwa [two_pow_wide] at h

theorem val_words16_of_lt {v : Nat} (h : v < 2 ^ 256 * 2 ^ 256) : val (words 16 v) = v := by
  rw [val_words, two_pow_wide, Nat.mod_eq_of_lt h]

/-- A word vector is its value: equal values are equal vectors. -/
theorem val_inj {n : Nat} {x y : WordVec n} (h : val x = val y) : x = y := by
  have hx := wordList_valList x.toList
  have hy := wordList_valList y.toList
  rw [Vector.length_toList] at hx hy
  apply Vector.toList_inj.mp
  rw [← hx, ← hy]
  exact congrArg (wordList n) h

theorem words_val {n : Nat} (x : WordVec n) : words n (val x) = x := by
  apply val_inj
  rw [val_words, Nat.mod_eq_of_lt (val_lt x)]

/-- A field vector's value from its eight words. -/
theorem val_field (z : FieldVec) :
    val z = z[0].toNat + 2 ^ 32 * (z[1].toNat + 2 ^ 32 * (z[2].toNat + 2 ^ 32 * (z[3].toNat + 2 ^ 32 *
      (z[4].toNat + 2 ^ 32 * (z[5].toNat + 2 ^ 32 * (z[6].toNat + 2 ^ 32 * z[7].toNat)))))) := by
  obtain ⟨⟨l⟩, h⟩ := z
  match l, h with
  | [z0, z1, z2, z3, z4, z5, z6, z7], _ => rfl

theorem valList_append (l m : List Word) : valList (l ++ m) = valList l + 2 ^ (32 * l.length) * valList m := by
  induction l with
  | nil => simp [valList]
  | cons w ws ih =>
    have : 2 ^ (32 * (w :: ws).length) = 2 ^ 32 * 2 ^ (32 * ws.length) := by
      rw [← Nat.pow_add]; congr 1; simp only [List.length_cons]; omega
    rw [this, List.cons_append, valList, valList, ih]
    ring

/-! ## The kernel primitives -/

/-- R8: the result and the carry are the sum. -/
theorem add8_value (x y : FieldVec) : val (add8 x y).1 + 2 ^ 256 * (add8 x y).2 = val x + val y := by
  simp only [add8, val_words8, Nat.mod_mod]
  exact Nat.mod_add_div _ _

theorem add8_carry (x y : FieldVec) : (add8 x y).2 ≤ 1 := by
  have := val_lt8 x; have := val_lt8 y
  simp only [add8]; omega

/-- R9: the result is the difference plus 2^256 times the borrow. -/
theorem sub8_value (x y : FieldVec) :
    (val (sub8 x y).1 : Int) = (val x : Int) - val y + 2 ^ 256 * (sub8 x y).2 := by
  have := val_lt8 x; have := val_lt8 y
  simp only [sub8, val_words8]
  split <;> omega

/-- R9: the borrow is 1 exactly when the difference is negative. -/
theorem sub8_borrow (x y : FieldVec) : (sub8 x y).2 = if val x < val y then 1 else 0 := by
  simp only [sub8]
  split <;> split <;> omega

/-- R10. -/
theorem cmpGE8_iff (x y : FieldVec) : cmpGE8 x y = true ↔ val x ≥ val y := by simp [cmpGE8]

/-- R10. -/
theorem isZero8_iff (x : FieldVec) : isZero8 x = true ↔ val x = 0 := by
  simp [isZero8, cmpGE8_iff, val_words8]

/-- R11: the result and the bit shifted out are twice the value plus the bit shifted in. -/
theorem shiftUpBit_value (x : FieldVec) (cin : Nat) :
    val (shiftUpBit x cin).1 + 2 ^ 256 * (shiftUpBit x cin).2 = 2 * val x + cin := by
  simp only [shiftUpBit, val_words8, Nat.mod_mod]
  exact Nat.mod_add_div _ _

theorem shiftUpBit_carry (x : FieldVec) {cin : Nat} (h : cin ≤ 1) : (shiftUpBit x cin).2 ≤ 1 := by
  have := val_lt8 x
  simp only [shiftUpBit]; omega

/-- R12. -/
theorem shiftDownBit_value (x : FieldVec) {cin : Nat} (h : cin ≤ 1) :
    val (shiftDownBit x cin) = val x / 2 + cin * 2 ^ 255 := by
  have := val_lt8 x
  simp only [shiftDownBit, val_words8]; omega

/-- R13: the product is exact. -/
theorem mul8x8to16_value (x y : FieldVec) : val (mul8x8to16 x y) = val x * val y :=
  val_words16_of_lt (Nat.mul_lt_mul'' (val_lt8 x) (val_lt8 y))

/-- R14: squaring is the product of a vector with itself. -/
theorem square8to16_eq (x : FieldVec) : square8to16 x = mul8x8to16 x x := rfl

end Sys2Proof.Machine
end

