-- ==== Sys2Proof/Laws/Solinas.lean ====
section
/-! SUPPORT. The comparisons with p (spec/00_scope.md R18) and the carry loop that every word-level correction and
reduction runs (spec/40_reduction.md R82, R84, R87): its output words and its final accumulator, as one equation. The
equation and the words' bound determine both. -/

namespace Sys2Proof.Machine

theorem val_P : val Config.P = Config.prime := by decide

theorem val_PInv : val Config.PInv = Config.primeInv := by decide

theorem prime_lt : Config.prime < 2 ^ 256 := by decide

theorem two_pow_lt_two_prime : 2 ^ 256 < 2 * Config.prime := by decide

theorem prime_add_primeInv : Config.prime + Config.primeInv = 2 ^ 256 := by decide

/-- R18: `geP` is the full comparison. -/
theorem geP_iff (z : FieldVec) : geP z = true ↔ Config.prime ≤ val z := by
  rw [geP, cmpGE8_iff, val_P]

/-- R18 "Canonical". -/
theorem isCanonical_iff (z : FieldVec) : isCanonical z = true ↔ val z < Config.prime := by
  rw [isCanonical, Bool.not_eq_true', ← Bool.not_eq_true, geP_iff, Nat.not_le]

/-! ## The carry loop -/

/-- The value of a list of column sums: sum over j of t_j * 2^(32j). -/
def colValue : List Int → Int
  | [] => 0
  | t :: ts => t + 2 ^ 32 * colValue ts

/-- One column: the accumulator is its low word plus 2^32 times its shift. -/
theorem lo32_add_asr32 (cc : Int) : ((lo32 cc).toNat : Int) + 2 ^ 32 * asr32 cc = cc := by
  have h : ((lo32 cc).toNat : Int) = cc % 2 ^ 32 := by
    rw [lo32, BitVec.toNat_ofInt]
    have := Int.emod_nonneg cc (by decide : (2 ^ 32 : Int) ≠ 0)
    push_cast
    omega
  rw [h, asr32]
  exact Int.emod_add_mul_ediv cc (2 ^ 32)

/-- The loop keeps the value: output words plus the final accumulator at their end are the columns plus the first
accumulator. -/
theorem carryChain_value (ts : List Int) (cc : Int) :
    (valList (carryChain ts cc).1 : Int) + 2 ^ (32 * ts.length) * (carryChain ts cc).2 = cc + colValue ts := by
  induction ts generalizing cc with
  | nil => simp [carryChain, valList, colValue]
  | cons t ts ih =>
    have h1 := lo32_add_asr32 (cc + t)
    have h2 := ih (asr32 (cc + t))
    have h3 : (2 : Int) ^ (32 * (t :: ts).length) = 2 ^ 32 * 2 ^ (32 * ts.length) := by
      rw [← pow_add]; congr 1; simp only [List.length_cons]; omega
    simp only [carryChain, valList, colValue]
    rw [h3]
    push_cast
    linear_combination h1 + 2 ^ 32 * h2

/-- The eight-column loop (R82, R84, R87): z + 2^256 * cc = sum of the columns. -/
theorem carryLoop_value (t : Vector Int 8) :
    (val (carryLoop t).1 : Int) + 2 ^ 256 * (carryLoop t).2 = colValue t.toList := by
  have h := carryChain_value t.toList 0
  rw [Vector.length_toList] at h
  simpa [carryLoop, val] using h

/-- The columns z[j] + d[j] sum to the value of z plus that of d. -/
theorem colValue_columns (z : FieldVec) (d : Vector Int 8) :
    colValue (columns z d).toList = (val z : Int) + colValue d.toList := by
  obtain ⟨⟨zl⟩, hz⟩ := z
  obtain ⟨⟨dl⟩, hd⟩ := d
  match zl, hz, dl, hd with
  | [z0, z1, z2, z3, z4, z5, z6, z7], _, [d0, d1, d2, d3, d4, d5, d6, d7], _ =>
    simp [columns, val, valList, colValue, Vector.toList_ofFn]
    ring

/-- c times PInv, from its four signed digits (R80, R87). -/
theorem colValue_pInvDigits (c : Int) : colValue (pInvDigits c).toList = c * Config.primeInv := by
  simp [pInvDigits, colValue, Config.primeInv]
  ring

/-- The loop of R84, R85 and R87 on `c * PInv`: z' + 2^256 * cc = z + c * PInv. -/
theorem carryLoop_pInv (c : Int) (z : FieldVec) :
    (val (carryLoop (columns z (pInvDigits c))).1 : Int) + 2 ^ 256 * (carryLoop (columns z (pInvDigits c))).2
      = val z + c * Config.primeInv := by
  rw [carryLoop_value, colValue_columns, colValue_pInvDigits]

theorem toList_wide (xx : WideVec) :
    xx.toList = (lowWords xx).toList ++ [xx[8], xx[9], xx[10], xx[11], xx[12], xx[13], xx[14], xx[15]] := by
  obtain ⟨⟨l⟩, h⟩ := xx
  match l, h with
  | [z0, z1, z2, z3, z4, z5, z6, z7, y0, y1, y2, y3, y4, y5, y6, y7], _ => rfl

/-- A double-width value from its low words and its eight high words. -/
theorem val_wide (xx : WideVec) :
    val xx = val (lowWords xx) + 2 ^ 256 * (xx[8].toNat + 2 ^ 32 * (xx[9].toNat + 2 ^ 32 * (xx[10].toNat + 2 ^ 32 *
      (xx[11].toNat + 2 ^ 32 * (xx[12].toNat + 2 ^ 32 * (xx[13].toNat + 2 ^ 32 * (xx[14].toNat + 2 ^ 32 *
        xx[15].toNat))))))) := by
  rw [val, toList_wide, valList_append, Vector.length_toList]
  rfl

/-- `combine` (R82): z + 2^256 * c is the low words' value plus the column sums. -/
theorem combine_value (xx : WideVec) :
    (val (combine xx).1 : Int) + 2 ^ 256 * (combine xx).2
      = val (lowWords xx) + colValue (columnSums xx).toList := by
  rw [combine, carryLoop_value, colValue_columns]

/-- R122: n + 1 squarings are one squaring and then n. -/
theorem squareTimes_succ (n : Nat) (z : FieldVec) :
    squareTimes (n + 1) z = squareTimes n (reduce (square8to16 z)) := by
  rw [squareTimes, withValue_eq, words_val]

end Sys2Proof.Machine
end

