-- ==== Sys2Proof/Laws/State.lean ====
section
/-! SUPPORT. One lemma per field per update of the state, so that no later proof unfolds a record update; then what each
update does to a register, to its words and to their defined flags. -/

namespace Sys2Proof.Machine

/-! ## `complete` -/

@[simp] theorem State.complete_f (s : State) (rd : RegNum) (r : Option FieldVec) : (s.complete rd r).f = s.f.set rd (r.getD (Config.unspec256 s.draws)) := rfl
@[simp] theorem State.complete_fDef (s : State) (rd : RegNum) (r : Option FieldVec) : (s.complete rd r).fDef = s.fDef.set rd (Vector.replicate 8 true) := rfl
@[simp] theorem State.complete_xx (s : State) (rd : RegNum) (r : Option FieldVec) : (s.complete rd r).xx = s.xx := rfl
@[simp] theorem State.complete_xxDef (s : State) (rd : RegNum) (r : Option FieldVec) : (s.complete rd r).xxDef = s.xxDef := rfl
@[simp] theorem State.complete_carry (s : State) (rd : RegNum) (r : Option FieldVec) : (s.complete rd r).carry = s.carry := rfl
@[simp] theorem State.complete_status (s : State) (rd : RegNum) (r : Option FieldVec) : (s.complete rd r).status = s.status := rfl
@[simp] theorem State.complete_pending (s : State) (rd : RegNum) (r : Option FieldVec) : (s.complete rd r).pending = s.pending := rfl
@[simp] theorem State.complete_returned (s : State) (rd : RegNum) (r : Option FieldVec) : (s.complete rd r).returned = s.returned := rfl
@[simp] theorem State.complete_draws (s : State) (rd : RegNum) (r : Option FieldVec) : (s.complete rd r).draws = s.draws + (if r.isSome then 0 else 1) := rfl

/-! ## `setWord` -/

@[simp] theorem State.setWord_f (s : State) (i : RegNum) (k : Fin 8) (v : Word) : (s.setWord i k v).f = s.f.set i (s.f[i].set k v) := rfl
@[simp] theorem State.setWord_fDef (s : State) (i : RegNum) (k : Fin 8) (v : Word) : (s.setWord i k v).fDef = s.fDef.set i (s.fDef[i].set k true) := rfl
@[simp] theorem State.setWord_xx (s : State) (i : RegNum) (k : Fin 8) (v : Word) : (s.setWord i k v).xx = s.xx := rfl
@[simp] theorem State.setWord_xxDef (s : State) (i : RegNum) (k : Fin 8) (v : Word) : (s.setWord i k v).xxDef = s.xxDef := rfl
@[simp] theorem State.setWord_carry (s : State) (i : RegNum) (k : Fin 8) (v : Word) : (s.setWord i k v).carry = s.carry := rfl
@[simp] theorem State.setWord_status (s : State) (i : RegNum) (k : Fin 8) (v : Word) : (s.setWord i k v).status = s.status := rfl
@[simp] theorem State.setWord_pending (s : State) (i : RegNum) (k : Fin 8) (v : Word) : (s.setWord i k v).pending = s.pending := rfl
@[simp] theorem State.setWord_returned (s : State) (i : RegNum) (k : Fin 8) (v : Word) : (s.setWord i k v).returned = s.returned := rfl
@[simp] theorem State.setWord_draws (s : State) (i : RegNum) (k : Fin 8) (v : Word) : (s.setWord i k v).draws = s.draws := rfl

/-! ## `setXXWord` -/

@[simp] theorem State.setXXWord_f (s : State) (k : Fin 16) (v : Word) : (s.setXXWord k v).f = s.f := rfl
@[simp] theorem State.setXXWord_fDef (s : State) (k : Fin 16) (v : Word) : (s.setXXWord k v).fDef = s.fDef := rfl
@[simp] theorem State.setXXWord_xx (s : State) (k : Fin 16) (v : Word) : (s.setXXWord k v).xx = s.xx.set k v := rfl
@[simp] theorem State.setXXWord_xxDef (s : State) (k : Fin 16) (v : Word) : (s.setXXWord k v).xxDef = s.xxDef.set k true := rfl
@[simp] theorem State.setXXWord_carry (s : State) (k : Fin 16) (v : Word) : (s.setXXWord k v).carry = s.carry := rfl
@[simp] theorem State.setXXWord_status (s : State) (k : Fin 16) (v : Word) : (s.setXXWord k v).status = s.status := rfl
@[simp] theorem State.setXXWord_pending (s : State) (k : Fin 16) (v : Word) : (s.setXXWord k v).pending = s.pending := rfl
@[simp] theorem State.setXXWord_returned (s : State) (k : Fin 16) (v : Word) : (s.setXXWord k v).returned = s.returned := rfl
@[simp] theorem State.setXXWord_draws (s : State) (k : Fin 16) (v : Word) : (s.setXXWord k v).draws = s.draws := rfl

/-! ## `setCarry` -/

@[simp] theorem State.setCarry_f (s : State) (v : Word) : (s.setCarry v).f = s.f := rfl
@[simp] theorem State.setCarry_fDef (s : State) (v : Word) : (s.setCarry v).fDef = s.fDef := rfl
@[simp] theorem State.setCarry_xx (s : State) (v : Word) : (s.setCarry v).xx = s.xx := rfl
@[simp] theorem State.setCarry_xxDef (s : State) (v : Word) : (s.setCarry v).xxDef = s.xxDef := rfl
@[simp] theorem State.setCarry_carry (s : State) (v : Word) : (s.setCarry v).carry = v := rfl
@[simp] theorem State.setCarry_status (s : State) (v : Word) : (s.setCarry v).status = s.status := rfl
@[simp] theorem State.setCarry_pending (s : State) (v : Word) : (s.setCarry v).pending = s.pending := rfl
@[simp] theorem State.setCarry_returned (s : State) (v : Word) : (s.setCarry v).returned = s.returned := rfl
@[simp] theorem State.setCarry_draws (s : State) (v : Word) : (s.setCarry v).draws = s.draws := rfl

/-! ## `raiseIllegal` -/

@[simp] theorem State.raiseIllegal_f (s : State) : (s.raiseIllegal).f = s.f := rfl
@[simp] theorem State.raiseIllegal_fDef (s : State) : (s.raiseIllegal).fDef = s.fDef := rfl
@[simp] theorem State.raiseIllegal_xx (s : State) : (s.raiseIllegal).xx = s.xx := rfl
@[simp] theorem State.raiseIllegal_xxDef (s : State) : (s.raiseIllegal).xxDef = s.xxDef := rfl
@[simp] theorem State.raiseIllegal_carry (s : State) : (s.raiseIllegal).carry = s.carry := rfl
@[simp] theorem State.raiseIllegal_status (s : State) : (s.raiseIllegal).status = setIll s.status := rfl
@[simp] theorem State.raiseIllegal_pending (s : State) : (s.raiseIllegal).pending = s.pending := rfl
@[simp] theorem State.raiseIllegal_returned (s : State) : (s.raiseIllegal).returned = s.returned := rfl
@[simp] theorem State.raiseIllegal_draws (s : State) : (s.raiseIllegal).draws = s.draws := rfl

/-! ## `resetEngine` -/

@[simp] theorem State.resetEngine_f (s : State) : (s.resetEngine).f = State.reset.f := rfl
@[simp] theorem State.resetEngine_fDef (s : State) : (s.resetEngine).fDef = State.reset.fDef := rfl
@[simp] theorem State.resetEngine_xx (s : State) : (s.resetEngine).xx = State.reset.xx := rfl
@[simp] theorem State.resetEngine_xxDef (s : State) : (s.resetEngine).xxDef = State.reset.xxDef := rfl
@[simp] theorem State.resetEngine_carry (s : State) : (s.resetEngine).carry = 0#32 := rfl
@[simp] theorem State.resetEngine_status (s : State) : (s.resetEngine).status = 0#32 := rfl
@[simp] theorem State.resetEngine_pending (s : State) : (s.resetEngine).pending = s.pending := rfl
@[simp] theorem State.resetEngine_returned (s : State) : (s.resetEngine).returned = s.returned := rfl
@[simp] theorem State.resetEngine_draws (s : State) : (s.resetEngine).draws = s.draws := rfl

/-! ## `hostRead` -/

@[simp] theorem State.hostRead_f (s : State) (a : Addr) : (s.hostRead a).f = s.f := rfl
@[simp] theorem State.hostRead_fDef (s : State) (a : Addr) : (s.hostRead a).fDef = s.fDef := rfl
@[simp] theorem State.hostRead_xx (s : State) (a : Addr) : (s.hostRead a).xx = s.xx := rfl
@[simp] theorem State.hostRead_xxDef (s : State) (a : Addr) : (s.hostRead a).xxDef = s.xxDef := rfl
@[simp] theorem State.hostRead_carry (s : State) (a : Addr) : (s.hostRead a).carry = s.carry := rfl
@[simp] theorem State.hostRead_status (s : State) (a : Addr) : (s.hostRead a).status = s.status := rfl
@[simp] theorem State.hostRead_pending (s : State) (a : Addr) : (s.hostRead a).pending = s.pending := rfl
@[simp] theorem State.hostRead_returned (s : State) (a : Addr) : (s.hostRead a).returned = s.returned ++ [s.readValue a] := rfl
@[simp] theorem State.hostRead_draws (s : State) (a : Addr) : (s.hostRead a).draws = s.draws + s.readDraws a := rfl

/-! ## `dropEvent` -/

@[simp] theorem State.dropEvent_f (s : State) : (s.dropEvent).f = s.f := rfl
@[simp] theorem State.dropEvent_fDef (s : State) : (s.dropEvent).fDef = s.fDef := rfl
@[simp] theorem State.dropEvent_xx (s : State) : (s.dropEvent).xx = s.xx := rfl
@[simp] theorem State.dropEvent_xxDef (s : State) : (s.dropEvent).xxDef = s.xxDef := rfl
@[simp] theorem State.dropEvent_carry (s : State) : (s.dropEvent).carry = s.carry := rfl
@[simp] theorem State.dropEvent_status (s : State) : (s.dropEvent).status = s.status := rfl
@[simp] theorem State.dropEvent_pending (s : State) : (s.dropEvent).pending = s.pending.tail := rfl
@[simp] theorem State.dropEvent_returned (s : State) : (s.dropEvent).returned = s.returned := rfl
@[simp] theorem State.dropEvent_draws (s : State) : (s.dropEvent).draws = s.draws := rfl

/-! ## `withCommand` -/

@[simp] theorem State.withCommand_f (s : State) (w : Word) : (s.withCommand w).f = s.f := rfl
@[simp] theorem State.withCommand_fDef (s : State) (w : Word) : (s.withCommand w).fDef = s.fDef := rfl
@[simp] theorem State.withCommand_xx (s : State) (w : Word) : (s.withCommand w).xx = s.xx := rfl
@[simp] theorem State.withCommand_xxDef (s : State) (w : Word) : (s.withCommand w).xxDef = s.xxDef := rfl
@[simp] theorem State.withCommand_carry (s : State) (w : Word) : (s.withCommand w).carry = s.carry := rfl
@[simp] theorem State.withCommand_status (s : State) (w : Word) : (s.withCommand w).status = s.status := rfl
@[simp] theorem State.withCommand_pending (s : State) (w : Word) : (s.withCommand w).pending = .write cmdAddr w :: s.pending := rfl
@[simp] theorem State.withCommand_returned (s : State) (w : Word) : (s.withCommand w).returned = s.returned := rfl
@[simp] theorem State.withCommand_draws (s : State) (w : Word) : (s.withCommand w).draws = s.draws := rfl

end Sys2Proof.Machine
end

