-- ==== Sys2Proof/Laws/Ops.lean ====
section
/-! SUPPORT. What each shared operation does to a register, to a word and to a defined flag, and what an operand read
answers. -/

namespace Sys2Proof.Machine

/-! ## Defined words (R32) -/

theorem all_toList_iff {n : Nat} (v : Vector Bool n) : v.toList.all id = true ↔ ∀ k : Fin n, v[k] = true := by
  rw [List.all_eq_true]
  constructor
  · intro h k
    exact h _ (by simp)
  · intro h b hb
    rw [Vector.mem_toList_iff, Vector.mem_iff_getElem] at hb
    obtain ⟨k, hk, rfl⟩ := hb
    exact h ⟨k, hk⟩

theorem State.regDefined_iff (s : State) (i : RegNum) :
    s.regDefined i = true ↔ ∀ k : Fin 8, s.wordDefined i k = true := all_toList_iff _

theorem State.xxDefined_iff (s : State) : s.xxDefined = true ↔ ∀ k : Fin 16, s.xxDef[k] = true := all_toList_iff _

/-! ## `complete` -/

theorem State.reg_complete_self (s : State) (rd : RegNum) (r : Option FieldVec) :
    (s.complete rd r).reg rd = r.getD (Config.unspec256 s.draws) := by simp [State.reg]

theorem State.reg_complete_of_ne (s : State) {rd i : RegNum} (r : Option FieldVec) (h : i ≠ rd) :
    (s.complete rd r).reg i = s.reg i := by
  have : rd.val ≠ i.val := fun e => h (Fin.ext e.symm)
  simp [State.reg, this]

theorem State.wordDefined_complete (s : State) (rd i : RegNum) (r : Option FieldVec) (k : Fin 8) :
    (s.complete rd r).wordDefined i k = (decide (i = rd) || s.wordDefined i k) := by
  by_cases h : i = rd
  · subst h; simp [State.wordDefined]
  · have : rd.val ≠ i.val := fun e => h (Fin.ext e.symm)
    simp [State.wordDefined, this, h]

theorem State.regDefined_complete_self (s : State) (rd : RegNum) (r : Option FieldVec) :
    (s.complete rd r).regDefined rd = true :=
  (State.regDefined_iff _ _).mpr fun k => by simp [State.wordDefined_complete]

/-! ## `setWord` -/

theorem State.reg_setWord_self (s : State) (i : RegNum) (k : Fin 8) (v : Word) :
    (s.setWord i k v).reg i = (s.reg i).set k v := by simp [State.reg]

theorem State.reg_setWord_of_ne (s : State) {i j : RegNum} (k : Fin 8) (v : Word) (h : j ≠ i) :
    (s.setWord i k v).reg j = s.reg j := by
  have : i.val ≠ j.val := fun e => h (Fin.ext e.symm)
  simp [State.reg, this]

theorem State.wordDefined_setWord (s : State) (i j : RegNum) (k m : Fin 8) (v : Word) :
    (s.setWord i k v).wordDefined j m = (decide (j = i ∧ m = k) || s.wordDefined j m) := by
  by_cases h : j = i
  · subst h
    by_cases hm : m = k
    · subst hm; simp [State.wordDefined]
    · have : k.val ≠ m.val := fun e => hm (Fin.ext e.symm)
      simp [State.wordDefined, this, hm]
  · have : i.val ≠ j.val := fun e => h (Fin.ext e.symm)
    simp [State.wordDefined, this, h]

/-! ## Operands -/

/-- A usable source of the field commands is its register's value, defined and canonical. -/
theorem State.fieldOperand_eq_some (s : State) (i : RegNum) (z : FieldVec) :
    s.fieldOperand i = some z ↔ s.regDefined i = true ∧ val (s.reg i) < Config.prime ∧ s.reg i = z := by
  rw [State.fieldOperand]
  split
  · rename_i h
    rw [Bool.and_eq_true, isCanonical_iff] at h
    simp [h]
  · rename_i h
    rw [Bool.and_eq_true, isCanonical_iff] at h
    simp only [reduceCtorEq, false_iff]
    exact fun ⟨h1, h2, _⟩ => h ⟨h1, h2⟩

/-- An unusable source: undefined or not canonical. -/
theorem State.fieldOperand_eq_none (s : State) (i : RegNum) :
    s.fieldOperand i = none ↔ ¬ (s.regDefined i = true ∧ val (s.reg i) < Config.prime) := by
  rw [State.fieldOperand]
  split
  · rename_i h
    rw [Bool.and_eq_true, isCanonical_iff] at h
    simp [h]
  · rename_i h
    rw [Bool.and_eq_true, isCanonical_iff] at h
    simp [h]

theorem State.anyOperand_eq_some (s : State) (i : RegNum) (z : FieldVec) :
    s.anyOperand i = some z ↔ s.regDefined i = true ∧ s.reg i = z := by
  rw [State.anyOperand]
  split <;> rename_i h <;> simp [h]

theorem State.wideOperand_eq_some (s : State) (x : WideVec) :
    s.wideOperand = some x ↔
      s.xxDefined = true ∧ val s.xx < Config.prime * Config.prime ∧ s.xx = x := by
  rw [State.wideOperand]
  split
  · rename_i h
    rw [Bool.and_eq_true, decide_eq_true_eq] at h
    simp [h]
  · rename_i h
    rw [Bool.and_eq_true, decide_eq_true_eq] at h
    simp only [reduceCtorEq, false_iff]
    exact fun ⟨h1, h2, _⟩ => h ⟨h1, h2⟩

/-! ## The exception (R131) -/

theorem State.ill_raiseIllegal (s : State) : s.raiseIllegal.ill = true := by
  simp [State.ill, illOf, setIll]

theorem setIll_of_ne_zero (w : Word) {j : Nat} (h : j ≠ 0) : (setIll w).getLsbD j = w.getLsbD j := by
  have : (1#32).getLsbD j = false := by simp [BitVec.getLsbD_one, h]
  rw [setIll, BitVec.getLsbD_or, this, Bool.or_false]

/-! ## The address map (R41) -/

theorem regAddr_fieldAddr : ∀ (i : RegNum) (k : Fin 8), regAddr (fieldAddr i k) = .field i k := by decide

theorem regAddr_xxAddr : ∀ k : Fin 16, regAddr (xxAddr k) = .xx k := by decide

theorem regAddr_cmdAddr : regAddr cmdAddr = .cmd := by decide

/-- The address of what `regAddr` names, none for unmapped. -/
def addrOf (r : RegAddr) : Option Addr :=
  match r with
  | .field i k => some (fieldAddr i k)
  | .xx k => some (xxAddr k)
  | .carry => some 0x90#8
  | .cmd => some cmdAddr
  | .status => some 0x92#8
  | .unmapped => none

/-- The map is one to one: what an address names has that address, and the unmapped addresses are 0x93 to 0xFF. -/
theorem addrOf_regAddr (a : Addr) : addrOf (regAddr a) = if a.toNat < 0x93 then some a else none := by
  have h : ∀ n : Fin (2 ^ 8), addrOf (regAddr (BitVec.ofFin n)) =
      if (BitVec.ofFin n).toNat < 0x93 then some (BitVec.ofFin n) else none := by decide +kernel
  have := h a.toFin
  rwa [BitVec.ofFin_toFin] at this

/-- An address that names something is that thing's address. -/
theorem eq_of_addrOf {a b : Addr} (h : addrOf (regAddr a) = some b) : a = b := by
  rw [addrOf_regAddr] at h
  split at h
  · exact Option.some.inj h
  · cases h

/-- An address that names a field word is that word's address. -/
theorem regAddr_eq_field {a : Addr} {i : RegNum} {k : Fin 8} (h : regAddr a = .field i k) : a = fieldAddr i k :=
  eq_of_addrOf (by rw [h]; rfl)

/-- An address that names an XX word is that word's address. -/
theorem regAddr_eq_xx {a : Addr} {k : Fin 16} (h : regAddr a = .xx k) : a = xxAddr k :=
  eq_of_addrOf (by rw [h]; rfl)

end Sys2Proof.Machine
end

