-- ==== Sys2Proof/Laws/PerInstr.lean ====
section
/-! SUPPORT. The family TableRow, about commands as syntax: a command's word, masked by its opcode-map row, is the row's
match (spec/30_encoding.md R63). One lemma per constructor of Instr. -/

namespace Sys2Proof.Laws.TableRow

/-- The command's word lies in the command's own row of the opcode map. -/
def Statement (i : Instr) : Prop := encode i &&& rowMask i = rowMatch i

theorem maskR3 (o : BitVec 8) (d a b : BitVec 4) :
    Field.pack o d a b 0 &&& 0xFF000FFF#32 = Field.pack (o &&& 0xFF#8) 0 0 0 0 := by
  rw [show (0xFF000FFF#32 : Word) = Field.pack 0xFF#8 0 0 0 0xFFF#12 by decide, Field.pack_and_pack]
  simp

theorem maskR2 (o : BitVec 8) (d a : BitVec 4) :
    Field.pack o d a 0 0 &&& 0xFF00FFFF#32 = Field.pack (o &&& 0xFF#8) 0 0 0 0 := by
  rw [show (0xFF00FFFF#32 : Word) = Field.pack 0xFF#8 0 0 0xF#4 0xFFF#12 by decide, Field.pack_and_pack]
  simp

theorem maskR2N (o : BitVec 8) (d a : BitVec 4) (n : BitVec 12) :
    Field.pack o d a 0 n &&& 0xFF00F000#32 = Field.pack (o &&& 0xFF#8) 0 0 0 0 := by
  rw [show (0xFF00F000#32 : Word) = Field.pack 0xFF#8 0 0 0xF#4 0 by decide, Field.pack_and_pack]
  simp

theorem maskR1 (o : BitVec 8) (d : BitVec 4) :
    Field.pack o d 0 0 0 &&& 0xFF0FFFFF#32 = Field.pack (o &&& 0xFF#8) 0 0 0 0 := by
  rw [show (0xFF0FFFFF#32 : Word) = Field.pack 0xFF#8 0 0xF#4 0xF#4 0xFFF#12 by decide, Field.pack_and_pack]
  simp

theorem add (rd rs1 rs2 : RegNum) : Statement (.add rd rs1 rs2) := (maskR3 _ _ _ _).trans rfl
theorem sub (rd rs1 rs2 : RegNum) : Statement (.sub rd rs1 rs2) := (maskR3 _ _ _ _).trans rfl
theorem neg (rd rs1 : RegNum) : Statement (.neg rd rs1) := (maskR2 _ _ _).trans rfl
theorem twice (rd rs1 : RegNum) : Statement (.twice rd rs1) := (maskR2 _ _ _).trans rfl
theorem half (rd rs1 : RegNum) : Statement (.half rd rs1) := (maskR2 _ _ _).trans rfl
theorem mul (rd rs1 rs2 : RegNum) : Statement (.mul rd rs1 rs2) := (maskR3 _ _ _ _).trans rfl
theorem sqr (rd rs1 : RegNum) : Statement (.sqr rd rs1) := (maskR2 _ _ _).trans rfl
theorem sqrn (rd rs1 : RegNum) (n : BitVec 12) : Statement (.sqrn rd rs1 n) := (maskR2N _ _ _ _).trans rfl
theorem addone (rd rs1 : RegNum) : Statement (.addone rd rs1) := (maskR2 _ _ _).trans rfl
theorem reduce (rd : RegNum) : Statement (.reduce rd) := (maskR1 _ _).trans rfl
theorem red32 (rd rs1 : RegNum) : Statement (.red32 rd rs1) := (maskR2 _ _ _).trans rfl
theorem canon (rd rs1 : RegNum) : Statement (.canon rd rs1) := (maskR2 _ _ _).trans rfl

end Sys2Proof.Laws.TableRow
end

