-- ==== Sys2Proof/Laws/Step.lean ====
section
/-! SUPPORT. What a command and what a step can do, said once: `exec_eq_complete` for the twelve commands and
`step_effect` for a step. Frames, invariants and whole-machine rules follow from these two without unfolding `exec` or
`step`. -/

namespace Sys2Proof.Machine

/-- A command's result: its word-level function on its sources, none where a source is not usable. -/
def resultOf (i : Instr) (s : State) : Option FieldVec :=
  match i with
  | .add _ rs1 rs2 => binaryResult modAdd (s.fieldOperand rs1) (s.fieldOperand rs2)
  | .sub _ rs1 rs2 => binaryResult modSub (s.fieldOperand rs1) (s.fieldOperand rs2)
  | .neg _ rs1 => unaryResult modNeg (s.fieldOperand rs1)
  | .twice _ rs1 => unaryResult modTwice (s.fieldOperand rs1)
  | .half _ rs1 => unaryResult modHalf (s.fieldOperand rs1)
  | .mul _ rs1 rs2 => binaryResult modMul (s.fieldOperand rs1) (s.fieldOperand rs2)
  | .sqr _ rs1 => unaryResult modSqr (s.fieldOperand rs1)
  | .sqrn _ rs1 n => unaryResult (squareTimes n.toNat) (s.fieldOperand rs1)
  | .addone _ rs1 => unaryResult modAddOne (s.fieldOperand rs1)
  | .reduce _ => unaryResult reduce s.wideOperand
  | .red32 _ rs1 => unaryResult (reduce32 s.carryOperand) (s.anyOperand rs1)
  | .canon _ rs1 => unaryResult canonise (s.anyOperand rs1)

theorem isSome_unaryResult {α : Type} (g : α → FieldVec) (a : Option α) : (unaryResult g a).isSome = a.isSome := by
  simp [unaryResult]

theorem isSome_binaryResult (g : FieldVec → FieldVec → FieldVec) (a b : Option FieldVec) :
    (binaryResult g a b).isSome = (a.isSome && b.isSome) := by
  cases a <;> cases b <;> rfl

/-- A command has a result exactly when its precondition holds. -/
theorem isSome_resultOf (i : Instr) (s : State) : (resultOf i s).isSome = ready i s := by
  cases i <;> simp only [resultOf, ready, isSome_unaryResult, isSome_binaryResult]

/-- Every well-formed command completes: it writes its destination and does nothing else (R30, R130). -/
theorem exec_eq_complete {i : Instr} (s : State) (h : i.wellFormed = true) :
    exec i s = .next (s.complete (destination i) (resultOf i s)) := by
  cases i with
  | sqrn rd rs1 n =>
    have : n ≠ 0 := by simpa [Instr.wellFormed] using h
    simp only [exec, execSqrn, destination, resultOf, if_neg this]
  | _ => rfl

/-- SQRN with a count of zero is no command: it has its illegal word's effect (R66 (c), R131). -/
theorem exec_sqrn_zero (rd rs1 : RegNum) (s : State) : exec (.sqrn rd rs1 0) s = .next s.raiseIllegal := rfl

/-- Completing a command changes its destination, that register's defined words and the count of free values only
(R30). -/
theorem keepsAllBut_complete (s : State) (rd : RegNum) (r : Option FieldVec) : KeepsAllBut rd s (s.complete rd r) := by
  refine ⟨fun i hi => ⟨State.reg_complete_of_ne _ _ hi, fun k => ?_⟩, rfl, rfl, rfl, rfl, rfl, rfl⟩
  rw [State.wordDefined_complete]
  simp [hi]

/-- A command whose precondition holds leaves its result. -/
theorem leaves_of_resultOf {i : Instr} {s : State} {z : FieldVec} (hw : i.wellFormed = true)
    (h : resultOf i s = some z) : Leaves i s (val z) := by
  refine ⟨_, exec_eq_complete s hw, ?_, State.regDefined_complete_self _ _ _, keepsAllBut_complete _ _ _⟩
  rw [State.reg_complete_self, h]
  rfl

theorem decodeR3_legal {mk : RegNum → RegNum → RegNum → Instr} {w : Word} {i : Instr}
    (h : decodeR3 mk w = .legal i) : ∃ a b c, i = mk a b c := by
  unfold decodeR3 at h
  split at h <;> cases h
  exact ⟨_, _, _, rfl⟩

theorem decodeR2_legal {mk : RegNum → RegNum → Instr} {w : Word} {i : Instr}
    (h : decodeR2 mk w = .legal i) : ∃ a b, i = mk a b := by
  unfold decodeR2 at h
  split at h <;> cases h
  exact ⟨_, _, rfl⟩

theorem decodeR2N_legal {mk : RegNum → RegNum → BitVec 12 → Instr} {w : Word} {i : Instr}
    (h : decodeR2N mk w = .legal i) : ∃ a b n, n ≠ 0 ∧ i = mk a b n := by
  unfold decodeR2N at h
  split at h
  · cases h
  · split at h <;> cases h
    exact ⟨_, _, _, ‹_›, rfl⟩

theorem decodeR1_legal {mk : RegNum → Instr} {w : Word} {i : Instr}
    (h : decodeR1 mk w = .legal i) : ∃ a, i = mk a := by
  unfold decodeR1 at h
  split at h <;> cases h
  exact ⟨_, rfl⟩

/-- What decode returns is a command. -/
theorem decode_wellFormed {w : Word} {i : Instr} (h : decode w = .legal i) : i.wellFormed = true := by
  unfold decode at h
  split at h
  case h_8 => obtain ⟨_, _, n, hn, rfl⟩ := decodeR2N_legal h; simpa [Instr.wellFormed] using hn
  case h_10 => obtain ⟨_, rfl⟩ := decodeR1_legal h; rfl
  case h_13 => cases h
  all_goals first
    | (obtain ⟨_, _, _, rfl⟩ := decodeR3_legal h; rfl)
    | (obtain ⟨_, _, rfl⟩ := decodeR2_legal h; rfl)

/-- Everything a step can do. -/
inductive Effect (s t : State) : Prop
  /-- The host has nothing to do. -/
  | idle (hp : s.pending = []) (ht : t = s)
  /-- A host read. -/
  | read (a : Addr) (l : List HostEvent) (hp : s.pending = .read a :: l) (ht : t = s.dropEvent.hostRead a)
  /-- The reset event. -/
  | reset (l : List HostEvent) (hp : s.pending = .reset :: l) (ht : t = s.dropEvent.resetEngine)
  /-- A host write of a field word. -/
  | field (i : RegNum) (k : Fin 8) (v : Word) (l : List HostEvent) (hp : s.pending = .write (fieldAddr i k) v :: l)
      (ht : t = s.dropEvent.setWord i k v)
  /-- A host write of an XX word. -/
  | xx (k : Fin 16) (v : Word) (l : List HostEvent) (hp : s.pending = .write (xxAddr k) v :: l)
      (ht : t = s.dropEvent.setXXWord k v)
  /-- A host write of CARRY. -/
  | carry (v : Word) (l : List HostEvent) (hp : s.pending = .write 0x90#8 v :: l) (ht : t = s.dropEvent.setCarry v)
  /-- A legal command. -/
  | command (i : Instr) (w : Word) (l : List HostEvent) (hp : s.pending = .write cmdAddr w :: l)
      (hd : decode w = .legal i) (ht : t = s.dropEvent.complete (destination i) (resultOf i s.dropEvent))
  /-- An illegal command word. -/
  | illegal (why : IllegalCause) (w : Word) (l : List HostEvent) (hp : s.pending = .write cmdAddr w :: l)
      (hd : decode w = .illegal why) (ht : t = s.dropEvent.raiseIllegal)
  /-- A write that is ignored: STATUS, or unmapped. -/
  | ignored (a : Addr) (v : Word) (l : List HostEvent) (hp : s.pending = .write a v :: l) (ha : 0x92 ≤ a.toNat)
      (ht : t = s.dropEvent)

/-- Every step has a next state, and it is one of the effects above. -/
theorem step_effect (s : State) : ∃ t, step s = .next t ∧ Effect s t := by
  match hp : s.pending with
  | [] => exact ⟨s, by simp [step, stepEvent, hp], .idle hp rfl⟩
  | .read a :: l => exact ⟨_, by simp only [step, stepEvent, hp, perform], .read a l hp rfl⟩
  | .reset :: l => exact ⟨_, by simp only [step, stepEvent, hp, perform], .reset l hp rfl⟩
  | .write a v :: l =>
    have hs : step s = hostWrite a v s.dropEvent := by simp only [step, stepEvent, hp, perform]
    have ha := addrOf_regAddr a
    match hr : regAddr a with
    | .field i k =>
      exact ⟨_, by simp only [hs, hostWrite, hr], .field i k v l (regAddr_eq_field hr ▸ hp) rfl⟩
    | .xx k => exact ⟨_, by simp only [hs, hostWrite, hr], .xx k v l (regAddr_eq_xx hr ▸ hp) rfl⟩
    | .carry =>
      have : a = 0x90#8 := eq_of_addrOf (by rw [hr]; rfl)
      exact ⟨_, by simp only [hs, hostWrite, hr], .carry v l (this ▸ hp) rfl⟩
    | .cmd =>
      have : a = cmdAddr := eq_of_addrOf (by rw [hr]; rfl)
      match hd : decode v with
      | .legal i =>
        exact ⟨_, by simp only [hs, hostWrite, hr, issue, hd, exec_eq_complete _ (decode_wellFormed hd)],
          .command i v l (this ▸ hp) hd rfl⟩
      | .illegal why =>
        exact ⟨_, by simp only [hs, hostWrite, hr, issue, hd], .illegal why v l (this ▸ hp) hd rfl⟩
    | .status =>
      have : a = 0x92#8 := eq_of_addrOf (by rw [hr]; rfl)
      exact ⟨_, by simp only [hs, hostWrite, hr], .ignored a v l hp (by subst this; decide) rfl⟩
    | .unmapped =>
      rw [hr] at ha
      have : ¬ a.toNat < 0x93 := fun h => by rw [if_pos h] at ha; cases ha
      exact ⟨_, by simp only [hs, hostWrite, hr], .ignored a v l hp (by omega) rfl⟩

/-- The inversion of a step that answers a next state. -/
theorem effect_of_step {s t : State} (h : step s = .next t) : Effect s t := by
  obtain ⟨u, hu, he⟩ := step_effect s
  rw [hu] at h
  cases h
  exact he

/-- A run of k + 1 steps is a step and a run of k. -/
theorem runSteps_succ {s t : State} (k : Nat) (h : step s = .next t) : runSteps (k + 1) s = runSteps k t := by
  simp only [runSteps, h]

end Sys2Proof.Machine
end

