-- ==== Sys2Proof/Tests/Slice0.lean ====
section
/-! SUPPORT. The model's own tests: expected values are the spec's (spec/30_encoding.md R66, R69 and
spec/95_test_vectors.md), and one witness for the hypotheses of every statement that has some. -/

namespace Sys2Proof.Tests

open Sys2Proof Sys2Proof.Machine

set_option Elab.async false

/-! ## Helpers -/

/-- `s` with register i holding v, all of it defined. -/
def withReg (s : State) (i : RegNum) (v : Nat) : State :=
  { s with f := s.f.set i (words 8 v), fDef := s.fDef.set i (Vector.replicate 8 true) }

/-- `s` with XX holding v, all of it defined. -/
def withXX (s : State) (v : Nat) : State := { s with xx := words 16 v, xxDef := Vector.replicate 16 true }

/-- The reset state with F0 = a. -/
def one (a : Nat) : State := withReg State.reset 0 a
/-- The reset state with F0 = a and F1 = b. -/
def two (a b : Nat) : State := withReg (one a) 1 b
/-- The reset state with these events still to come. -/
def due (l : List HostEvent) : State := { State.reset with pending := l }

/-- The destination's value after the command, where the command has a next state and its destination is defined. -/
def result (i : Instr) (s : State) : Option Nat :=
  match exec i s with
  | .next t => if t.regDefined (destination i) then some (val (t.reg (destination i))) else none
  | .fault _ => none
  | .refused _ => none

/-- A read-out of the state after one step. -/
def after {α : Type} (s : State) (g : State → α) : Option α :=
  match step s with
  | .next t => some (g t)
  | .fault _ => none
  | .refused _ => none

/-- What a host read of a returns. -/
def readOut (s : State) (a : Addr) : Option (List Word) := after { s with pending := [.read a] } State.returned

abbrev p : Nat := Config.prime
abbrev pInv : Nat := Config.primeInv
/-- The vectors' RA and RB (95_test_vectors.md). -/
abbrev ra : Nat := 0x73AB48767734D7C1C7FDE805EC99108DDB5B5FAB8F4D3E27DDA1494C73CF256D
abbrev rb : Nat := 0x79CB9E86830C71C2CDCC69292F45E678309D6B79965EDA32DAE445508201E2BD

/-! ## Well-formedness and the encoding (R64, R66, R69, 95_test_vectors.md 2.1) -/

theorem test_sqrn_zero_is_ill_formed : Instr.wellFormed (.sqrn 4 0 0) = false := by decide
theorem test_sqrn_one_is_well_formed : Instr.wellFormed (.sqrn 4 0 1) = true := by decide

theorem test_decode_add : decode 0x01FED000#32 = .legal (.add 15 14 13) := by decide
theorem test_decode_sub : decode 0x02123000#32 = .legal (.sub 1 2 3) := by decide
theorem test_decode_neg : decode 0x03450000#32 = .legal (.neg 4 5) := by decide
theorem test_decode_twice : decode 0x04670000#32 = .legal (.twice 6 7) := by decide
theorem test_decode_half : decode 0x05890000#32 = .legal (.half 8 9) := by decide
theorem test_decode_mul : decode 0x06ABC000#32 = .legal (.mul 10 11 12) := by decide
theorem test_decode_sqr : decode 0x07DE0000#32 = .legal (.sqr 13 14) := by decide
theorem test_decode_sqrn : decode 0x08F00001#32 = .legal (.sqrn 15 0 1) := by decide
theorem test_decode_sqrn_max : decode 0x080F0FFF#32 = .legal (.sqrn 0 15 4095) := by decide
theorem test_decode_addone : decode 0x09110000#32 = .legal (.addone 1 1) := by decide
theorem test_decode_reduce : decode 0x0AF00000#32 = .legal (.reduce 15) := by decide
theorem test_decode_red32 : decode 0x0B230000#32 = .legal (.red32 2 3) := by decide
theorem test_decode_canon : decode 0x0CFF0000#32 = .legal (.canon 15 15) := by decide
theorem test_encode_max : encode (.mul 15 15 15) = 0x06FFF000#32 ∧ encode (.sqrn 3 3 256) = 0x08330100#32 := by decide

theorem test_decode_unassigned :
    decode 0x00000000#32 = .illegal .unassignedOp ∧ decode 0xFFFFFFFF#32 = .illegal .unassignedOp ∧
    decode 0x0D000000#32 = .illegal .unassignedOp ∧ decode 0x00201000#32 = .illegal .unassignedOp ∧
    decode 0x80000000#32 = .illegal .unassignedOp := by
  decide
theorem test_decode_nonzero_field :
    decode 0x01201001#32 = .illegal .nonzeroField ∧ decode 0x06201800#32 = .illegal .nonzeroField ∧
    decode 0x03401000#32 = .illegal .nonzeroField ∧ decode 0x07320001#32 = .illegal .nonzeroField ∧
    decode 0x08401008#32 = .illegal .nonzeroField ∧ decode 0x0A010000#32 = .illegal .nonzeroField ∧
    decode 0x0A000001#32 = .illegal .nonzeroField ∧ decode 0x0A00F000#32 = .illegal .nonzeroField ∧
    decode 0x0B211000#32 = .illegal .nonzeroField ∧ decode 0x0C430FFF#32 = .illegal .nonzeroField ∧
    decode 0x09810010#32 = .illegal .nonzeroField := by
  decide
theorem test_decode_zero_count : decode 0x08400000#32 = .illegal .zeroCount := by decide
theorem test_decode_table_word :
    decodeTableWord 32 0x01201000 = some (.add 2 0 1) ∧ decodeTableWord 32 0 = none := by decide +kernel
theorem test_assembly : assembly (.sqrn 4 0 8) = "SQRN F4, F0, 8" ∧ assembly (.sub 3 0 1) = "SUB F3, F0, F1" := by
  decide

/-! ## Host accesses, the exception, reset (95_test_vectors.md 2.2) -/

theorem test_address_map :
    regAddr 0x00#8 = .field 0 0 ∧ regAddr 0x2B#8 = .field 5 3 ∧ regAddr 0x3C#8 = .field 7 4 ∧
    regAddr 0x7F#8 = .field 15 7 ∧ regAddr 0x80#8 = .xx 0 ∧ regAddr 0x8F#8 = .xx 15 ∧ regAddr 0x90#8 = .carry ∧
    regAddr 0x91#8 = .cmd ∧ regAddr 0x92#8 = .status ∧ regAddr 0x93#8 = .unmapped ∧ regAddr 0xFF#8 = .unmapped := by
  decide
theorem test_reads_after_reset :
    (∀ a ∈ [0x90#8, 0x92#8, 0x91#8, 0x80#8, 0x93#8, 0xFF#8], readOut State.reset a = some [0#32]) := by decide
theorem test_write_and_read_word :
    after (due [.write 0x2B#8 0xDEADBEEF#32]) (fun t => (t.wordDefined 5 3, t.wordDefined 5 2, readOut t 0x2B#8))
      = some (true, false, some [0xDEADBEEF#32]) := by decide
theorem test_xx_reads_zero :
    after (due [.write 0x85#8 0x12345678#32]) (fun t => (t.xx[5], readOut t 0x85#8))
      = some (0x12345678#32, some [0#32]) := by decide
theorem test_carry_reads_back :
    after (due [.write 0x90#8 0xFFFFFFFC#32]) (fun t => (t.carryOperand, readOut t 0x90#8))
      = some (-4, some [0xFFFFFFFC#32]) := by decide
theorem test_status_write_ignored :
    after (due [.write 0x92#8 0xFFFFFFFF#32]) (fun t => readOut t 0x92#8) = some (some [0#32]) := by decide
theorem test_illegal_before_definedness :
    after (due [.write 0x91#8 0x03651000#32]) (fun t => (readOut t 0x92#8, t.regDefined 6))
      = some (some [1#32], false) := by decide
theorem test_reset_event :
    after { two 5 7 with status := 1#32, carry := 9#32, pending := [.reset] }
      (fun t => (t.status, t.carry, t.wordDefined 0 0, t.pending)) = some (0#32, 0#32, false, []) := by decide
theorem test_fetch_word :
    after (State.withFetchWord (two 5 (p - 1)) 32 0x01201000) (fun t => (val (t.reg 2), t.pending)) = some (4, []) := by
  decide +kernel
theorem test_first_step_of_reset : after State.reset id = some State.reset := by decide
theorem test_load_script :
    Script.ldf 1 (p - 1) = [.write 0x08#8 0xFFFFFFFE#32, .write 0x09#8 0xFFFFFFFF#32, .write 0x0A#8 0xFFFFFFFF#32,
      .write 0x0B#8 0#32, .write 0x0C#8 0#32, .write 0x0D#8 0#32, .write 0x0E#8 1#32, .write 0x0F#8 0xFFFFFFFF#32] := by
  decide +kernel

/-! ## Kernel primitives and helpers (95_test_vectors.md 2.3, 2.4) -/

theorem test_add8 : add8 (words 8 (2 ^ 256 - 1)) (words 8 1) = (words 8 0, 1) := by decide +kernel
theorem test_sub8 : sub8 (words 8 5) (words 8 (p - 1))
    = (words 8 0x00000000FFFFFFFEFFFFFFFFFFFFFFFFFFFFFFFF000000000000000000000007, 1) := by decide +kernel
theorem test_shiftUpBit : shiftUpBit (words 8 (2 ^ 255)) 1 = (words 8 1, 1) := by decide +kernel
theorem test_shiftDownBit : shiftDownBit (words 8 1) 1 = words 8 (2 ^ 255) := by decide +kernel
theorem test_mul8x8to16 : val (mul8x8to16 (words 8 ra) (words 8 rb))
    = 0x3707F5B2F1DFD1F955567C2E95B5F170606269C1779DC2D48B6D59170AEFA4C1E02F83C5A4F4B1B8935E9E0D46D229A910BC575A37D208B24BCA538EDE65DB79 := by
  decide +kernel
theorem test_addPInvTo : addPInvTo (words 8 5)
    = words 8 0x00000000FFFFFFFEFFFFFFFFFFFFFFFFFFFFFFFF000000000000000000000006 := by decide +kernel
theorem test_subPInvFrom : subPInvFrom (words 8 5)
    = words 8 0xFFFFFFFF00000001000000000000000000000001000000000000000000000004 := by decide +kernel
/-- The column-by-column trace of RA * RB ends with carry -1. -/
theorem test_combine : combine (words 16 (ra * rb))
    = (words 8 0xCD2A6F6CA79D915F80D3037A0BBFBAF484DE965F9193F16D3AE13A2F37742FF9, -1) := by decide +kernel

/-! ## Commands, one step each (95_test_vectors.md 2.5 to 2.16) -/

theorem test_add_carry : result (.add 2 0 1) (two (p - 1) (p - 1)) = some (p - 2) := by decide +kernel
theorem test_add_in_place : result (.add 0 0 0) (one (2 ^ 255)) = some pInv := by decide +kernel
theorem test_sub_borrow : result (.sub 3 0 1) (two 5 (p - 1)) = some 6 := by decide +kernel
theorem test_sub_order : result (.sub 3 0 1) (two rb ra)
    = some 0x062056100BD79A0105CE812342ACD5EA55420BCE07119C0AFD42FC040E32BD50 := by decide +kernel
theorem test_neg_zero : result (.neg 4 0) (one 0) = some 0 := by decide +kernel
theorem test_neg : result (.neg 4 0) (one ra)
    = some 0x8C54B78888CB283F380217FA1366EF7224A4A05570B2C1D8225EB6B38C30DA92 := by decide +kernel
theorem test_twice_carry : result (.twice 6 0) (one (2 ^ 255)) = some pInv := by decide +kernel
theorem test_twice_compare : result (.twice 6 0) (one ((p + 1) / 2)) = some 1 := by decide +kernel
theorem test_half_odd_carry : result (.half 7 0) (one pInv) = some (2 ^ 255) := by decide +kernel
theorem test_half_even : result (.half 7 0) (one (p - 1)) = some ((p - 1) / 2) := by decide +kernel
theorem test_addone_wraps : result (.addone 8 0) (one (p - 1)) = some 0 := by decide +kernel
theorem test_addone_ripple : result (.addone 8 0) (one 0xFFFFFFFF) = some 0x100000000 := by decide +kernel
theorem test_mul : result (.mul 2 0 1) (two ra rb)
    = some 0xCD2A6F6BA79D916080D3037A0BBFBAF484DE96609193F16D3AE13A2F37742FF8 := by decide +kernel
theorem test_mul_carry_four : result (.mul 0 0 1)
    (two 0xEB52E3C84834996F965DAF22EE18D9FEDB5D938C59D0F21CC74D962EFCCD8BD6
      0xF70111340A4D401BDDBF8FDA264B23E8417E2906973E780687DF073158A00459)
    = some 0x072F41819F5D352F66378C870D26082D9F4FE993CC0F6A1D1A17F5B68B5528BD := by decide +kernel
theorem test_sqr : result (.sqr 3 0) (one ra)
    = some 0xC39BC81D72F950701C5018EF13797E51E41C010855CE430F1FFCFD87B52352FC := by decide +kernel
theorem test_sqr_top_word : result (.sqr 0 0) (one 0xFFFFFFFF00000000000000000000000000000000000000000000000000000000)
    = some 0xFFFFFFFDFFFFFFFDFFFFFFFFFFFFFFFFFFFFFFFF000000000000000100000001 := by decide +kernel
theorem test_sqrn_eight : result (.sqrn 4 0 8) (one 2) = some pInv := by decide +kernel
theorem test_sqrn_three : result (.sqrn 4 0 3) (one ra)
    = some 0xB86EADB359D5C8A1D7A6BA39516F8C55787BC20670ACC0EF7F2D54649775CCC7 := by decide +kernel
theorem test_reduce_top : result (.reduce 0) (withXX State.reset (p * p - 1)) = some (p - 1) := by decide +kernel
theorem test_reduce : result (.reduce 9) (withXX State.reset (2 ^ 511))
    = some 0x80000001FFFFFFFF7FFFFFFFFFFFFFFF7FFFFFFE7FFFFFFF8000000000000001 := by decide +kernel
theorem test_red32_minus_one : result (.red32 2 0) { one 0 with carry := 0xFFFFFFFF#32 }
    = some 0xFFFFFFFE00000002000000000000000000000001FFFFFFFFFFFFFFFFFFFFFFFE := by decide +kernel
theorem test_red32_max : result (.red32 2 0) { one (2 ^ 256 - 1) with carry := 0x7FFFFFFF#32 }
    = some 0x7FFFFFFF7FFFFFFFFFFFFFFFFFFFFFFF8000000000000000000000007FFFFFFF := by decide +kernel
theorem test_canon_above : result (.canon 4 0) (one (p + 5)) = some 5 := by decide +kernel
theorem test_canon_below : result (.canon 4 0) { one (p - 1) with carry := 3#32 } = some (p - 1) := by decide +kernel

/-! ## Witnesses: for each statement with hypotheses, a state and operands that meet them, clause by clause -/

/-- A state with everything defined that the witnesses read: F0 = p - 1, F1 = p, XX = p^2 - 1, ILL set. -/
def full : State :=
  { withXX (two (p - 1) p) (p ^ 2 - 1) with carry := 0x80000000#32, status := 1#32 }

theorem step_next (s : State) : ∃ t, step s = .next t :=
  let ⟨t, h, _⟩ := step_effect s
  ⟨t, h⟩

/-- `full` with ILL clear. -/
def clean : State := { full with status := 0#32 }

theorem witness_DecodeReadsWordFields :
    (∀ w ∈ [0x00FFF000#32, 0x01201000#32, 0x01201001#32, 0x02301000#32, 0x03400000#32, 0x04610000#32, 0x05760000#32,
        0x06FFF000#32, 0x07320000#32, 0x08400FFF#32, 0x08400000#32, 0x09810000#32, 0x0A000000#32, 0x0A010000#32,
        0x0B210000#32, 0x0C431000#32, 0x0D000000#32, 0xFFFFFFFF#32],
      ∃ rd ra rb : RegNum, rd.val = BitVec.toNat w / 2 ^ 20 % 16 ∧ ra.val = BitVec.toNat w / 2 ^ 16 % 16 ∧
        rb.val = BitVec.toNat w / 2 ^ 12 % 16) :=
  fun w _ => ⟨⟨_, Nat.mod_lt _ (by decide)⟩, ⟨_, Nat.mod_lt _ (by decide)⟩, ⟨_, Nat.mod_lt _ (by decide)⟩, rfl, rfl, rfl⟩

theorem witness_DecodeAndEncodeAgree :
    Instr.wellFormed (.sqrn 15 15 4095) = true ∧ decode 0x080F0FFF#32 = .legal (.sqrn 0 15 4095) := by decide

theorem witness_StepRunsDecodedInstruction :
    ((due [.write 0x91#8 0x01201000#32]).pending = [.write 0x91#8 0x01201000#32] ∧
      decode 0x01201000#32 = .legal (.add 2 0 1)) ∧
    ((due [.write 0x91#8 0#32]).pending = [.write 0x91#8 0#32] ∧ decode 0#32 = .illegal .unassignedOp) := by decide

/-- One state for every range of HostReadReturnsMappedWord, at its boundaries. -/
theorem witness_HostReadReturnsMappedWord :
    (∀ a : Addr, (due [.read a]).pending = [.read a]) ∧
    ((0x00#8).toNat = 8 * (0 : RegNum).val + (0 : Fin 8).val ∧ clean.wordDefined 0 0 = true) ∧
    ((0x0F#8).toNat = 8 * (1 : RegNum).val + (7 : Fin 8).val ∧ clean.wordDefined 1 7 = true) ∧
    (0x80 ≤ (0x80#8).toNat ∧ (0x8F#8).toNat ≤ 0x8F) ∧ (0x90#8).toNat = 0x90 ∧ (0x91#8).toNat = 0x91 ∧
    (0x92#8).toNat = 0x92 ∧ 0x93 ≤ (0x93#8).toNat ∧ 0x93 ≤ (0xFF#8).toNat :=
  ⟨fun _ => rfl, by decide⟩

theorem witness_HostWriteStoresMappedWord :
    (∀ a v, (due [.write a v]).pending = [.write a v]) ∧
    (0x00#8).toNat = 8 * (0 : RegNum).val + (0 : Fin 8).val ∧ (0x7F#8).toNat = 8 * (15 : RegNum).val + (7 : Fin 8).val ∧
    (0x80#8).toNat = 0x80 + (0 : Fin 16).val ∧ (0x8F#8).toNat = 0x80 + (15 : Fin 16).val ∧ (0x90#8).toNat = 0x90 ∧
    (0x91#8).toNat = 0x91 ∧ 0x92 ≤ (0x92#8).toNat ∧ 0x92 ≤ (0xFF#8).toNat :=
  ⟨fun _ _ => rfl, by decide⟩

theorem witness_ReadReturnsLastWrite :
    ((due [.write 0x7F#8 1#32, .read 0x7F#8]).pending = [.write 0x7F#8 1#32, .read 0x7F#8] ∧ (0x7F#8).toNat < 0x80) ∧
    ((due [.write 0x90#8 1#32, .read 0x90#8]).pending = [.write 0x90#8 1#32, .read 0x90#8] ∧ (0x90#8).toNat = 0x90) ∧
    (decode 0x0AF00000#32 = .legal (.reduce 15) ∧
      (due [.write 0x91#8 0x0AF00000#32, .read 0x7F#8]).pending
        = [.write 0x91#8 0x0AF00000#32, .read (fieldAddr (destination (.reduce 15)) 7)]) := by decide

theorem witness_IllegalCommandSetsOnlyIll :
    (due [.write 0x91#8 0x08400000#32]).pending = [.write 0x91#8 0x08400000#32] ∧
    ¬ ∃ i, decode 0x08400000#32 = .legal i :=
  ⟨rfl, fun ⟨i, h⟩ => by rw [test_decode_zero_count] at h; cases h⟩

theorem witness_IllIsSticky :
    full.ill = true ∧
    (∃ t, step full = .next t ∧ ∀ l, full.pending ≠ .reset :: l) ∧
    (∃ t, step { full with pending := [.reset] } = .next t) ∧
    (({ full with pending := [.write 0x91#8 0x01201000#32] } : State).pending = [.write 0x91#8 0x01201000#32] ∧
      decode 0x01201000#32 = .legal (.add 2 0 1)) :=
  ⟨by decide +kernel, (step_next full).imp fun _ h => ⟨h, fun _ h => by cases h⟩, step_next _, rfl, by decide⟩

theorem witness_OnlyIllegalWordRaisesIll :
    ∃ t, step (due [.write 0x91#8 0#32]) = .next t ∧ (due [.write 0x91#8 0#32]).ill = false ∧ t.ill = true :=
  ⟨_, rfl, by decide, by decide⟩

theorem witness_ResetEvent :
    ({ full with pending := [.reset] } : State).pending = [.reset] ∧
    ∃ t, step full = .next t ∧ (∀ l, full.pending ≠ .reset :: l) ∧ full.ill = true ∧ full.wordDefined 0 0 = true ∧
      full.xxDef[15] = true :=
  ⟨rfl, (step_next full).imp fun _ h =>
    ⟨h, fun _ h => (by cases h), by decide +kernel, by decide +kernel, by decide +kernel⟩⟩

theorem witness_CommandFrame :
    Instr.wellFormed (.sqrn 15 0 1) = true ∧ ∃ t, exec (.sqrn 15 0 1) full = .next t :=
  ⟨by decide, _, exec_eq_complete full rfl⟩

theorem witness_ResultsAreCanonical :
    (Instr.wellFormed (.add 2 0 0) = true ∧ ready (.add 2 0 0) full = true ∧
      ∃ t, exec (.add 2 0 0) full = .next t) ∧
    (due [.write 0x7F#8 1#32]).pending = [.write (fieldAddr 15 7) 1#32] :=
  ⟨⟨by decide, by decide +kernel, _, exec_eq_complete full rfl⟩, by decide⟩

theorem witness_OnlyHostWritesXXAndCarry :
    ∃ t, step (due [.write 0x7F#8 1#32]) = .next t ∧ (∀ l, (due [.write 0x7F#8 1#32]).pending ≠ .reset :: l) ∧
      (∀ a v l, (due [.write 0x7F#8 1#32]).pending = .write a v :: l → ¬ (0x80 ≤ a.toNat ∧ a.toNat ≤ 0x8F)) ∧
      (∀ v l, (due [.write 0x7F#8 1#32]).pending ≠ .write 0x90#8 v :: l) :=
  (step_next _).imp fun _ h =>
    ⟨h, fun _ h => (by cases h), fun _ _ _ h => (by cases h; decide), fun _ _ h => (by cases h)⟩

/-- One step for each way a word is defined afterwards: it was, the host wrote it, a command had its register as
destination. -/
theorem witness_WordsBecomeDefined :
    (∃ t, step full = .next t ∧ (∀ l, full.pending ≠ .reset :: l) ∧ full.wordDefined 0 0 = true) ∧
    (∃ t, step (due [.write 0x7F#8 1#32]) = .next t ∧ (∀ l, (due [.write 0x7F#8 1#32]).pending ≠ .reset :: l) ∧
      (due [.write 0x7F#8 1#32]).pending = [.write (fieldAddr 15 7) 1#32]) ∧
    (∃ t, step (due [.write 0x91#8 0x01201000#32]) = .next t ∧
      (∀ l, (due [.write 0x91#8 0x01201000#32]).pending ≠ .reset :: l) ∧
      decode 0x01201000#32 = .legal (.add 2 0 1) ∧ destination (.add 2 0 1) = 2) :=
  ⟨(step_next _).imp fun _ h => ⟨h, fun _ h => (by cases h), by decide +kernel⟩,
   (step_next _).imp fun _ h => ⟨h, fun _ h => (by cases h), by decide⟩,
   (step_next _).imp fun _ h => ⟨h, fun _ h => (by cases h), by decide, by decide⟩⟩

/-- One pair of states for each kind of source: two registers, one register, XX, and a register with CARRY. -/
theorem witness_ResultDependsOnNamedStateOnly :
    (ready (.add 2 0 0) full = true ∧ ready (.add 2 0 0) (one (p - 1)) = true ∧ (one (p - 1)).reg 0 = full.reg 0) ∧
    (ready (.sqr 2 0) full = true ∧ ready (.sqr 2 0) (one (p - 1)) = true) ∧
    (ready (.reduce 2) full = true ∧ ready (.reduce 2) (withXX State.reset (p ^ 2 - 1)) = true ∧
      (withXX State.reset (p ^ 2 - 1)).xx = full.xx) ∧
    (ready (.red32 2 1) full = true ∧ ready (.red32 2 1) clean = true ∧ clean.reg 1 = full.reg 1 ∧
      clean.carry = full.carry) ∧
    (∃ t t', exec (.add 2 0 0) full = .next t ∧ exec (.add 2 0 0) (one (p - 1)) = .next t') :=
  ⟨by decide +kernel, by decide +kernel, by decide +kernel, by decide +kernel, _, _, exec_eq_complete _ rfl,
    exec_eq_complete _ rfl⟩

theorem witness_StepKeepsInvariant : State.reset.Inv ∧ ∃ t, step State.reset = .next t :=
  ⟨⟨by decide, by decide, by decide⟩, _, rfl⟩

theorem witness_AddPInvToValue :
    val (words 8 (2 * p - 2 ^ 256 - 1)) + 2 ^ 256 < 2 * p ∧ p ≤ val (words 8 p) := by decide +kernel

theorem witness_SubPInvFromValue : -(p : Int) ≤ (val (words 8 pInv) : Int) - 2 ^ 256 := by decide +kernel

theorem witness_CorrectUpValue :
    val (words 8 (2 * p - 2 ^ 256 - 1)) + 1 * 2 ^ 256 < 2 * p ∧ val (words 8 (2 ^ 256 - 1)) + 0 * 2 ^ 256 < 2 * p := by
  decide +kernel

theorem witness_Reduce32Value :
    (-2 ^ 31 ≤ (-2 ^ 31 : Int) ∧ (-2 ^ 31 : Int) ≤ 2 ^ 31 - 1) ∧ (-2 ^ 31 ≤ (2 ^ 31 - 1 : Int)) := by decide

theorem witness_ProductBound : val (words 8 (p - 1)) < p := by decide +kernel

/-- Canonical sources at both ends of the range, for ADD, SUB, NEG, TWICE, HALF, ADDONE, MUL, SQR and SQRN. -/
theorem witness_CanonicalSource :
    (two (p - 1) 0).CanonicalSource 0 ∧ (two (p - 1) 0).CanonicalSource 1 := by decide +kernel

theorem witness_HalfResult : (1 : Nat) < p ∧ (one 2).CanonicalSource 0 := by decide +kernel

/-- MUL, SQR and SQRN: a defined canonical and a defined non-canonical source; the word of SQRN with count 0. -/
theorem witness_MultiplicativeResults :
    (full.regDefined 0 = true ∧ val (full.reg 0) < p) ∧ (full.regDefined 1 = true ∧ p ≤ val (full.reg 1)) ∧
    (1 : BitVec 12) ≠ 0 ∧ (4095 : BitVec 12) ≠ 0 ∧
    ((0x08400000#32 : Word).toNat / 2 ^ 24 = 0x08 ∧ (0x08400000#32 : Word).toNat % 2 ^ 12 = 0 ∧
      (due [.write 0x91#8 0x08400000#32]).pending = [.write 0x91#8 0x08400000#32]) := by decide +kernel

theorem witness_ReduceResult :
    (full.xxDefined = true ∧ val full.xx < p ^ 2) ∧
    ((withXX State.reset (p ^ 2)).xxDefined = true ∧ p ^ 2 ≤ val (withXX State.reset (p ^ 2)).xx) := by decide +kernel

/-- RED32 and CANON: a defined source on either side of p. -/
theorem witness_AnySource :
    full.regDefined 0 = true ∧ full.regDefined 1 = true ∧ ¬ p ≤ val (full.reg 0) ∧ p ≤ val (full.reg 1) := by
  decide +kernel

theorem witness_UnusableSourceCompletes :
    Instr.wellFormed (.red32 2 1) = true ∧ ready (.red32 2 1) State.reset = false ∧ ready (.add 2 0 1) full = false := by
  decide +kernel

theorem witness_AdditiveCommonRules :
    isAdditive (.sub 2 0 1) = true ∧
    (∀ r ∈ canonicalSources (.sub 2 0 1), (two (p - 1) 0).CanonicalSource r) ∧
    (∀ r ∈ canonicalSources (.sub 2 0 1), full.regDefined r = true) ∧
    (∃ r ∈ canonicalSources (.sub 2 0 1), p ≤ val (full.reg r)) := by decide +kernel

theorem witness_SafeStepDrawsNothing :
    ∃ t, ({ clean with pending := [.write 0x91#8 0x0A000000#32] } : State).nextSafe = true ∧ clean.ill = false ∧
      step { clean with pending := [.write 0x91#8 0x0A000000#32] } = .next t :=
  (step_next _).imp fun _ h => ⟨by decide +kernel, by decide +kernel, h⟩

theorem witness_Laws : val (words 8 (p - 1)) < p ∧ val (words 8 0) < p := by decide +kernel

theorem witness_SqrnComposes : (one (p - 1)).CanonicalSource 0 ∧ 1 ≤ 1 ∧ 1 ≤ 4094 ∧ 1 + 4094 ≤ 4095 := by
  decide +kernel

/-- Events between a write and its read that touch neither F15[7] nor CARRY: a read, writes of other words, a command with
another destination and an illegal word. -/
def between : List HostEvent :=
  [.read 0x7F#8, .write 0x7E#8 3#32, .write 0x85#8 3#32, .write 0xFF#8 3#32, .write 0x91#8 0x01201000#32,
    .write 0x91#8 0#32]

theorem witness_ReadReturnsLastWriteLater :
    ((due (.write 0x7F#8 1#32 :: (between ++ [.read 0x7F#8]))).pending = .write 0x7F#8 1#32 :: (between ++ [.read 0x7F#8]) ∧
      (0x7F#8).toNat < 0x80 ∧ ∀ e ∈ between, touches 0x7F#8 e = false) ∧
    ((0x90#8).toNat = 0x90 ∧ ∀ e ∈ between, touches 0x90#8 e = false) ∧
    (decode 0x0AF00000#32 = .legal (.reduce 15) ∧
      (due (.write 0x91#8 0x0AF00000#32 :: (between ++ [.read 0x7F#8]))).pending
        = .write 0x91#8 0x0AF00000#32 :: (between ++ [.read (fieldAddr (destination (.reduce 15)) 7)]) ∧
      (∀ e ∈ between, touches (fieldAddr (destination (.reduce 15)) 7) e = false) ∧
      ∃ r, step (due (.write 0x91#8 0x0AF00000#32 :: (between ++ [.read 0x7F#8]))) = .next r) :=
  ⟨⟨rfl, by decide, by decide⟩, ⟨by decide, by decide⟩, by decide, by decide, by decide, step_next _⟩

/-- A command with the register as destination, a write of the word and the reset event do touch it. -/
theorem test_touches :
    touches 0x12#8 (.write 0x91#8 0x01201000#32) = true ∧ touches 0x12#8 (.write 0x12#8 0#32) = true ∧
    touches 0x90#8 .reset = true := by decide

theorem witness_IdleStepHoldsState : State.reset.pending = [] := rfl

end Sys2Proof.Tests
end

section
/-! PROOFS. Scope (spec/00_scope.md R2, R18): the forms of p, and the comparison with p through the top word. -/

namespace Sys2Proof.Machine

/-- p is odd (R2). -/
theorem prime_mod_two : Config.prime % 2 = 1 := by decide

/-- The literal is the sum of powers of two that names the field (R2). -/
theorem prime_eq_solinas : Config.prime = 2 ^ 256 - 2 ^ 224 + 2 ^ 192 + 2 ^ 96 - 1 := by decide

/-- Settles O1: each form is a closed number or vector, and the wired words' value is `val_P`. -/
theorem primeFormsAgree : Obligations.PrimeFormsAgree :=
  ⟨prime_eq_solinas, rfl, val_P, rfl, prime_mod_two⟩

/-- The top word is the value's quotient by 2^224 (R6). -/
theorem topWord_toNat (z : FieldVec) : z[7].toNat = val z / 2 ^ 224 := by
  have h := val_field z
  omega

/-- The reason the fast path loses nothing: p is at least (2^32 - 1) * 2^224, so a value from p on has an all-ones top
word (R18, U7). -/
theorem topWord_allOnes_of_prime_le {z : FieldVec} (h : Config.prime ≤ val z) : z[7] = 0xFFFFFFFF#32 := by
  have hp : (2 ^ 32 - 1) * 2 ^ 224 ≤ Config.prime := by decide
  have hquot : 2 ^ 32 - 1 ≤ val z / 2 ^ 224 := (Nat.le_div_iff_mul_le (by decide)).mpr (hp.trans h)
  have hlt := z[7].isLt
  apply BitVec.eq_of_toNat_eq
  rw [← topWord_toNat] at hquot
  change z[7].toNat = 2 ^ 32 - 1
  omega

/-- R18: the fast path is the top word's test in front of the full comparison. -/
theorem gePFast_iff (z : FieldVec) : gePFast z = true ↔ z[7] = 0xFFFFFFFF#32 ∧ geP z = true := by
  rw [gePFast, geP, Bool.and_eq_true, beq_iff_eq]

/-- R18: the top word's test refuses nothing that the full comparison accepts. -/
theorem gePFast_eq_geP (z : FieldVec) : gePFast z = geP z := by
  rw [Bool.eq_iff_iff, gePFast_iff]
  exact and_iff_right_of_imp fun h => topWord_allOnes_of_prime_le ((geP_iff z).mp h)

/-- Settles O2, from the comparison's and the canonical test's own lemmas and the all-ones top word of every value from p
on. -/
theorem comparisonWithPrime : Obligations.ComparisonWithPrime :=
  fun z => ⟨geP_iff z, isCanonical_iff z, gePFast_eq_geP z⟩

end Sys2Proof.Machine
end

section
/-! PROOFS. The state's invariant (spec/10_state.md R26, R32, R33): each of the state's operations keeps it, so every
effect of a step does. -/

namespace Sys2Proof.Machine

/-! ## Defined words of the states that only move the host's side, and of the state after reset -/

theorem State.wordDefined_congr {s t : State} (h : t.fDef = s.fDef) (i : RegNum) (k : Fin 8) :
    t.wordDefined i k = s.wordDefined i k := by
  rw [State.wordDefined, State.wordDefined, h]

theorem State.reg_congr {s t : State} (h : t.f = s.f) (i : RegNum) : t.reg i = s.reg i := by
  rw [State.reg, State.reg, h]

theorem State.ill_congr {s t : State} (h : t.status = s.status) : t.ill = s.ill := by rw [State.ill, State.ill, h]

@[simp] theorem State.wordDefined_reset (i : RegNum) (k : Fin 8) : State.reset.wordDefined i k = false := by
  simp [State.wordDefined, State.reset]

@[simp] theorem State.xxDef_reset (k : Fin 16) : State.reset.xxDef[k] = false := by simp [State.reset]

/-- Settles O16: CARRY and STATUS are closed words, and each table of defined words is all false. -/
theorem resetValues : Obligations.ResetValues :=
  ⟨rfl, rfl, rfl, State.wordDefined_reset, State.xxDef_reset⟩

/-! ## The invariant -/

/-- Settles O24: STATUS is the zero word, and every stored word is zero, defined or not. -/
theorem resetMeetsInvariant : Obligations.ResetMeetsInvariant where
  statusReserved _ _ := BitVec.getLsbD_zero
  fieldUndefined i k _ := by simp [State.reg, State.reset]
  xxUndefined k _ := by simp [State.reset]

section
variable {s : State}

/-- The invariant speaks of the registers, XX, their defined words and STATUS only. -/
theorem State.Inv.congr {t : State} (h : s.Inv) (hf : t.f = s.f) (hfd : t.fDef = s.fDef) (hx : t.xx = s.xx)
    (hxd : t.xxDef = s.xxDef) (hst : t.status = s.status) : t.Inv where
  statusReserved j hj := by rw [hst]; exact h.statusReserved j hj
  fieldUndefined i k hk := by
    rw [State.wordDefined_congr hfd] at hk
    rw [State.reg_congr hf]
    exact h.fieldUndefined i k hk
  xxUndefined k hk := by
    rw [hxd] at hk
    rw [hx]
    exact h.xxUndefined k hk

theorem State.Inv.dropEvent (h : s.Inv) : s.dropEvent.Inv := h.congr rfl rfl rfl rfl rfl

theorem State.Inv.hostRead (h : s.Inv) (a : Addr) : (s.hostRead a).Inv := h.congr rfl rfl rfl rfl rfl

theorem State.Inv.setCarry (h : s.Inv) (v : Word) : (s.setCarry v).Inv := h.congr rfl rfl rfl rfl rfl

/-- A reset needs no invariant before it. -/
theorem State.Inv.resetEngine (s : State) : s.resetEngine.Inv := resetMeetsInvariant.congr rfl rfl rfl rfl rfl

/-- R131: ILL is bit 0, so the reserved bits stay. -/
theorem State.Inv.raiseIllegal (h : s.Inv) : s.raiseIllegal.Inv where
  statusReserved j hj := by
    rw [State.raiseIllegal_status, setIll_of_ne_zero _ hj]
    exact h.statusReserved j hj
  fieldUndefined := h.fieldUndefined
  xxUndefined := h.xxUndefined

/-- A word undefined after a command lies outside its destination, and was undefined and zero before. -/
theorem State.Inv.complete (h : s.Inv) (rd : RegNum) (r : Option FieldVec) : (s.complete rd r).Inv where
  statusReserved := h.statusReserved
  fieldUndefined i k hk := by
    rw [State.wordDefined_complete, Bool.or_eq_false_iff, decide_eq_false_iff_not] at hk
    obtain ⟨hne, hk⟩ := hk
    rw [State.reg_complete_of_ne _ _ hne]
    exact h.fieldUndefined i k hk
  xxUndefined := h.xxUndefined

/-- What a write of one field word leaves in the words other than it. -/
theorem State.getElem_reg_setWord_of_ne (s : State) {i j : RegNum} {k m : Fin 8} (v : Word) (h : ¬ (j = i ∧ m = k)) :
    ((s.setWord i k v).reg j)[m] = (s.reg j)[m] := by
  by_cases hj : j = i
  · subst hj
    have hm : k.val ≠ m.val := fun e => h ⟨rfl, Fin.ext e.symm⟩
    rw [State.reg_setWord_self]
    exact Vector.getElem_set_ne _ _ hm
  · rw [State.reg_setWord_of_ne _ _ _ hj]

/-- A word undefined after a host write is not the word written, and was undefined and zero before. -/
theorem State.Inv.setWord (h : s.Inv) (i : RegNum) (k : Fin 8) (v : Word) : (s.setWord i k v).Inv where
  statusReserved := h.statusReserved
  fieldUndefined j m hm := by
    rw [State.wordDefined_setWord, Bool.or_eq_false_iff, decide_eq_false_iff_not] at hm
    obtain ⟨hne, hm⟩ := hm
    rw [State.getElem_reg_setWord_of_ne _ _ hne]
    exact h.fieldUndefined j m hm
  xxUndefined := h.xxUndefined

/-- The same for a host write of a word of XX. -/
theorem State.Inv.setXXWord (h : s.Inv) (k : Fin 16) (v : Word) : (s.setXXWord k v).Inv where
  statusReserved := h.statusReserved
  fieldUndefined := h.fieldUndefined
  xxUndefined m hm := by
    have hne : k.val ≠ m.val := by
      intro e
      obtain rfl := Fin.ext e
      simp at hm
    have hxxDef : (s.xxDef.set k true)[m] = s.xxDef[m] := Vector.getElem_set_ne _ _ hne
    have hxx : (s.xx.set k v)[m] = s.xx[m] := Vector.getElem_set_ne _ _ hne
    rw [State.setXXWord_xxDef, hxxDef] at hm
    rw [State.setXXWord_xx, hxx]
    exact h.xxUndefined m hm

end

/-- Settles O25, by the effects of a step: each is the event's removal followed by one operation that keeps the
invariant. -/
theorem stepKeepsInvariant : Obligations.StepKeepsInvariant := by
  intro s t h hstep
  cases effect_of_step hstep with
  | idle _ ht => exact ht ▸ h
  | read a _ _ ht => exact ht ▸ h.dropEvent.hostRead a
  | reset _ _ ht => exact ht ▸ State.Inv.resetEngine _
  | field i k v _ _ ht => exact ht ▸ h.dropEvent.setWord i k v
  | xx k v _ _ ht => exact ht ▸ h.dropEvent.setXXWord k v
  | carry v _ _ ht => exact ht ▸ h.dropEvent.setCarry v
  | command i _ _ _ _ ht => exact ht ▸ h.dropEvent.complete _ _
  | illegal _ _ _ _ _ ht => exact ht ▸ h.dropEvent.raiseIllegal
  | ignored _ _ _ _ _ ht => exact ht ▸ h.dropEvent

end Sys2Proof.Machine
end

section
/-! PROOFS. What a step changes and what it leaves (spec/10_state.md R24 to R26, R30, R32): the frame of the commands,
and who writes XX, CARRY, ILL and the defined words. -/

namespace Sys2Proof.Machine

/-- Settles O54: with no event the step answers its own state. -/
theorem idleStepHoldsState : Obligations.IdleStepHoldsState := by
  intro s hp
  rw [step, stepEvent, hp]

/-- Settles O19: a well-formed command is the completion of its destination, whose frame is `keepsAllBut_complete`. -/
theorem commandFrame : Obligations.CommandFrame := by
  intro i s t hw hexec
  rw [exec_eq_complete s hw] at hexec
  cases hexec
  exact ⟨keepsAllBut_complete _ _ _, (State.regDefined_iff _ _).mp (State.regDefined_complete_self _ _ _)⟩

/-! ## Addresses -/

theorem fieldAddr_inj {i j : RegNum} {k m : Fin 8} (h : fieldAddr i k = fieldAddr j m) : i = j ∧ k = m := by
  have hr := congrArg regAddr h
  rw [regAddr_fieldAddr, regAddr_fieldAddr] at hr
  cases hr
  exact ⟨rfl, rfl⟩

/-- Field words lie below 0x80. -/
theorem fieldAddr_toNat (i : RegNum) (k : Fin 8) : (fieldAddr i k).toNat = 8 * i.val + k.val := by
  simp only [fieldAddr, BitVec.toNat_ofNat]
  omega

/-- The words of XX lie from 0x80 to 0x8F. -/
theorem xxAddr_toNat (k : Fin 16) : (xxAddr k).toNat = 0x80 + k.val := by
  simp only [xxAddr, BitVec.toNat_ofNat]
  omega

theorem fieldAddr_ne_cmdAddr (i : RegNum) (k : Fin 8) : fieldAddr i k ≠ cmdAddr := by
  intro h
  have hr := congrArg regAddr h
  rw [regAddr_fieldAddr, regAddr_cmdAddr] at hr
  cases hr

theorem xxAddr_ne_cmdAddr (k : Fin 16) : xxAddr k ≠ cmdAddr := by
  intro h
  have hr := congrArg regAddr h
  rw [regAddr_xxAddr, regAddr_cmdAddr] at hr
  cases hr

/-! ## Who writes ILL, XX and CARRY -/

theorem State.ill_resetEngine (s : State) : s.resetEngine.ill = false :=
  (State.ill_congr (s := State.reset) rfl).trans rfl

/-- Settles O15: reset ends in ILL = 0 and every other effect but the illegal word's keeps STATUS. -/
theorem onlyIllegalWordRaisesIll : Obligations.OnlyIllegalWordRaisesIll := by
  intro s t hstep hs ht
  have kept : t.status ≠ s.status := by
    intro h
    rw [State.ill_congr h, hs] at ht
    cases ht
  cases effect_of_step hstep with
  | illegal why w l hp hd _ => exact ⟨w, l, why, hp, hd⟩
  | reset _ _ e =>
    rw [e, State.ill_resetEngine] at ht
    cases ht
  | idle _ e | read _ _ _ e | field _ _ _ _ _ e | xx _ _ _ _ e | carry _ _ _ e | command _ _ _ _ _ e
  | ignored _ _ _ _ _ e =>
    subst e
    exact absurd rfl kept

/-- R24: a step other than a reset or a host write of an XX word keeps XX and its defined words. -/
theorem Effect.xx_unchanged {s t : State} (h : Effect s t) (hreset : ∀ l, s.pending ≠ .reset :: l)
    (hwrite : ∀ k v l, s.pending ≠ .write (xxAddr k) v :: l) : t.xx = s.xx ∧ t.xxDef = s.xxDef := by
  cases h with
  | reset l hp _ => exact absurd hp (hreset l)
  | xx k v l hp _ => exact absurd hp (hwrite k v l)
  | idle _ e | read _ _ _ e | field _ _ _ _ _ e | carry _ _ _ e | command _ _ _ _ _ e | illegal _ _ _ _ _ e
  | ignored _ _ _ _ _ e =>
    subst e
    exact ⟨rfl, rfl⟩

/-- R25: a step other than a reset or a host write of CARRY keeps CARRY. -/
theorem Effect.carry_unchanged {s t : State} (h : Effect s t) (hreset : ∀ l, s.pending ≠ .reset :: l)
    (hwrite : ∀ v l, s.pending ≠ .write 0x90#8 v :: l) : t.carry = s.carry := by
  cases h with
  | reset l hp _ => exact absurd hp (hreset l)
  | carry v l hp _ => exact absurd hp (hwrite v l)
  | idle _ e | read _ _ _ e | field _ _ _ _ _ e | xx _ _ _ _ e | command _ _ _ _ _ e | illegal _ _ _ _ _ e
  | ignored _ _ _ _ _ e =>
    subst e
    rfl

/-- Settles O21: the words of XX have the addresses 0x80 to 0x8F. -/
theorem onlyHostWritesXXAndCarry : Obligations.OnlyHostWritesXXAndCarry := by
  intro s t hstep hreset
  have effect := effect_of_step hstep
  refine ⟨fun hwrite => effect.xx_unchanged hreset fun k v l hp => hwrite _ v l hp ?_, effect.carry_unchanged hreset⟩
  rw [xxAddr_toNat]
  omega

/-! ## Who defines a field word (R32) -/

/-- The host's access e makes word k of register i defined: it writes the word, or it writes to CMD a legal command with
that destination (R32, R43, R44). -/
def DefinesWord (e : HostEvent) (i : RegNum) (k : Fin 8) : Prop :=
  (∃ v, e = .write (fieldAddr i k) v) ∨ (∃ w c, e = .write cmdAddr w ∧ decode w = .legal c ∧ destination c = i)

theorem definesWord_write_field (i j : RegNum) (k m : Fin 8) (v : Word) :
    DefinesWord (.write (fieldAddr j m) v) i k ↔ i = j ∧ k = m := by
  constructor
  · rintro (⟨_, h⟩ | ⟨_, _, h, _⟩)
    · obtain ⟨ha, _⟩ := HostEvent.write.inj h
      obtain ⟨rfl, rfl⟩ := fieldAddr_inj ha
      exact ⟨rfl, rfl⟩
    · exact absurd (HostEvent.write.inj h).1 (fieldAddr_ne_cmdAddr j m)
  · rintro ⟨rfl, rfl⟩
    exact .inl ⟨v, rfl⟩

/-- A write that names neither a field word nor CMD defines no field word. -/
theorem not_definesWord_write {a : Addr} (ha : 0x80 ≤ a.toNat) (hcmd : a ≠ cmdAddr) (v : Word) (i : RegNum)
    (k : Fin 8) : ¬ DefinesWord (.write a v) i k := by
  rintro (⟨_, h⟩ | ⟨_, _, h, _⟩) <;> obtain ⟨rfl, _⟩ := HostEvent.write.inj h
  · rw [fieldAddr_toNat] at ha
    omega
  · exact hcmd rfl

theorem definesWord_write_cmd (w : Word) (i : RegNum) (k : Fin 8) :
    DefinesWord (.write cmdAddr w) i k ↔ ∃ c, decode w = .legal c ∧ destination c = i := by
  constructor
  · rintro (⟨_, h⟩ | ⟨_, c, h, hd⟩)
    · exact absurd (HostEvent.write.inj h).1.symm (fieldAddr_ne_cmdAddr i k)
    · obtain ⟨-, rfl⟩ := HostEvent.write.inj h
      exact ⟨c, hd⟩
  · rintro ⟨c, hd⟩
    exact .inr ⟨w, c, rfl, hd⟩

theorem not_definesWord_read (a : Addr) (i : RegNum) (k : Fin 8) : ¬ DefinesWord (.read a) i k := by
  rintro (⟨_, h⟩ | ⟨_, _, h, _⟩) <;> cases h

/-- After a step other than a reset a field word is defined exactly when it was or the access defined it. -/
theorem Effect.wordDefined_iff {s t : State} (h : Effect s t) (hreset : ∀ l, s.pending ≠ .reset :: l) (i : RegNum)
    (k : Fin 8) :
    t.wordDefined i k = true ↔ s.wordDefined i k = true ∨ ∃ e ∈ s.pending.head?, DefinesWord e i k := by
  have drop : s.dropEvent.wordDefined i k = s.wordDefined i k := State.wordDefined_congr rfl i k
  have kept (hfd : t.fDef = s.fDef) (hno : ∀ e ∈ s.pending.head?, ¬ DefinesWord e i k) :
      t.wordDefined i k = true ↔ s.wordDefined i k = true ∨ ∃ e ∈ s.pending.head?, DefinesWord e i k := by
    rw [State.wordDefined_congr hfd, or_iff_left fun ⟨e, he, hd⟩ => hno e he hd]
  cases h with
  | reset l hp _ => exact absurd hp (hreset l)
  | idle hp e => exact kept (e ▸ rfl) (by simp [hp])
  | read a l hp e => exact kept (e ▸ rfl) (by simp [hp, not_definesWord_read])
  | field j m v l hp e =>
    rw [e, State.wordDefined_setWord, drop]
    simp [hp, definesWord_write_field, or_comm]
  | xx m v l hp e =>
    have hlow : 0x80 ≤ (xxAddr m).toNat := xxAddr_toNat m ▸ Nat.le_add_right _ _
    exact kept (e ▸ rfl) (by simp [hp, not_definesWord_write hlow (xxAddr_ne_cmdAddr m)])
  | carry v l hp e => exact kept (e ▸ rfl) (by simp [hp, not_definesWord_write (a := 0x90#8) (by decide) (by decide)])
  | command c w l hp hd e =>
    rw [e, State.wordDefined_complete, drop]
    simp [hp, definesWord_write_cmd, hd, or_comm, eq_comm (a := i)]
  | illegal why w l hp hd e => exact kept (e ▸ rfl) (by simp [hp, definesWord_write_cmd, hd])
  | ignored a v l hp ha e =>
    have hne : a ≠ cmdAddr := by
      rintro rfl
      exact absurd ha (by decide)
    exact kept (e ▸ rfl) (by simp [hp, not_definesWord_write (by omega : 0x80 ≤ a.toNat) hne])

/-- Settles O22: the statement's two disjuncts are the two ways an access defines a word. -/
theorem wordsBecomeDefined : Obligations.WordsBecomeDefined := by
  intro s t hstep hreset i k
  rw [(effect_of_step hstep).wordDefined_iff hreset i k]
  refine or_congr_right ⟨?_, ?_⟩
  · rintro ⟨e, he, ⟨v, rfl⟩ | ⟨w, c, rfl, hd⟩⟩
    · obtain ⟨l, hp⟩ := List.head?_eq_some_iff.mp he
      exact .inl ⟨v, l, hp⟩
    · obtain ⟨l, hp⟩ := List.head?_eq_some_iff.mp he
      exact .inr ⟨w, l, c, hp, hd⟩
  · rintro (⟨v, l, hp⟩ | ⟨w, l, c, hp, hd⟩)
    · exact ⟨_, by rw [hp]; rfl, .inl ⟨v, rfl⟩⟩
    · exact ⟨_, by rw [hp]; rfl, .inr ⟨w, c, rfl, hd⟩⟩

end Sys2Proof.Machine
end

section
/-! PROOFS. The values of the corrections and reductions (spec/40_reduction.md R83 to R88, R91): each function as one
residue modulo p or modulo 2^256, from the carry loop's equation and its words' bound. -/

namespace Sys2Proof.Machine

theorem prime_pos : 0 < Config.prime := by decide

/-- p + PInv = 2^256 as integers. -/
theorem primeInv_eq : (Config.primeInv : Int) = 2 ^ 256 - Config.prime := by
  have := prime_add_primeInv
  omega

/-- An integer in [0, p) that differs from x by a multiple of p is x mod p. -/
theorem eq_emod_prime {r x : Int} (k : Int) (h : r = x + k * Config.prime) (h0 : 0 ≤ r) (hp : r < Config.prime) :
    r = x % Config.prime := by
  rw [← Int.add_mul_emod_self_right x k, ← h, Int.emod_eq_of_lt h0 hp]

/-! ## The helpers -/

/-- R84: PInv is added and the carry dropped. -/
theorem val_addPInvTo (z : FieldVec) : val (addPInvTo z) = (val z + Config.primeInv) % 2 ^ 256 := by
  have loop := carryLoop_pInv 1 z
  have hlt := val_lt8 (addPInvTo z)
  rw [← addPInvTo] at loop
  omega

/-- R85: PInv is subtracted and the borrow dropped. -/
theorem val_subPInvFrom (z : FieldVec) :
    (val (subPInvFrom z) : Int) = ((val z : Int) - Config.primeInv) % 2 ^ 256 := by
  have loop := carryLoop_pInv (-1) z
  have hlt := val_lt8 (subPInvFrom z)
  rw [← subPInvFrom] at loop
  omega

/-- R86: the correction returns the true value modulo p, for every true value below 2p. -/
theorem val_correctUp {z : FieldVec} {c : Nat} (hc : c ≤ 1) (h : val z + c * 2 ^ 256 < 2 * Config.prime) :
    val (correctUp z c) = (val z + c * 2 ^ 256) % Config.prime := by
  have hz := val_lt8 z
  have hp := prime_add_primeInv
  have h2p := two_pow_lt_two_prime
  simp only [correctUp, geP_iff]
  split
  · have hge : Config.prime ≤ val z + c * 2 ^ 256 := by omega
    rw [val_addPInvTo, Nat.mod_eq_sub_mod hge, Nat.mod_eq_of_lt (by omega : _ < Config.prime)]
    omega
  · obtain rfl : c = 0 := by omega
    rw [Nat.mod_eq_of_lt] <;> omega

/-- R91: the normaliser is the correction with no carry. -/
theorem canonise_eq_correctUp (z : FieldVec) : canonise z = correctUp z 0 := by
  simp [canonise, correctUp]

/-- R91. -/
theorem val_canonise (z : FieldVec) : val (canonise z) = val z % Config.prime := by
  have hz := val_lt8 z
  have h2p := two_pow_lt_two_prime
  rw [canonise_eq_correctUp, val_correctUp (by omega) (by omega)]
  simp

/-! ## The signed fold -/

/-- R87's correction: where the loop's result stands for a value from -p on and below 2p, the residue of that
value is left. -/
theorem val_correctSigned {z : FieldVec} {cc v : Int} (hv : (val z : Int) + 2 ^ 256 * cc = v)
    (hlo : -(Config.prime : Int) ≤ v) (hhi : v < 2 * Config.prime) :
    (val (correctSigned z cc) : Int) = v % Config.prime := by
  have hz := val_lt8 z
  have hp := primeInv_eq
  have h2p := two_pow_lt_two_prime
  have hlt := prime_lt
  simp only [correctSigned, geP_iff]
  split
  next h =>
    have hadd := val_addPInvTo z
    have hval : (val (addPInvTo z) : Int) = v + -1 * Config.prime := by
      rcases h with rfl | ⟨rfl, hge⟩ <;> omega
    exact eq_emod_prime (-1) hval (by omega) (by omega)
  next h =>
    split
    · have hsub := val_subPInvFrom z
      exact eq_emod_prime 1 (by omega) (by omega) (by omega)
    · exact eq_emod_prime 0 (by omega) (by omega) (by omega)

/-- R87: the canonical residue of z + c * 2^256, for every 32-bit signed c. -/
theorem val_reduce32 {c : Int} (hlo : -2 ^ 31 ≤ c) (hhi : c ≤ 2 ^ 31 - 1) (z : FieldVec) :
    (val (reduce32 c z) : Int) = ((val z : Int) + c * 2 ^ 256) % Config.prime := by
  have hz := val_lt8 z
  have fold := val_correctSigned (carryLoop_pInv c z)
  have hPInv : (Config.primeInv : Int) = 0x00000000FFFFFFFEFFFFFFFFFFFFFFFFFFFFFFFF000000000000000000000001 := rfl
  have hP : (Config.prime : Int) = 0xFFFFFFFF00000001000000000000000000000000FFFFFFFFFFFFFFFFFFFFFFFF := rfl
  rw [reduce32, fold (by rw [hPInv, hP]; omega) (by rw [hPInv, hP]; omega), primeInv_eq]
  rw [show (val z : Int) + c * (2 ^ 256 - Config.prime) = val z + c * 2 ^ 256 + -c * Config.prime by ring]
  exact Int.add_mul_emod_self_right _ _ _

/-- R87: the fold leaves a canonical vector. -/
theorem val_reduce32_lt {c : Int} (hlo : -2 ^ 31 ≤ c) (hhi : c ≤ 2 ^ 31 - 1) (z : FieldVec) :
    val (reduce32 c z) < Config.prime := by
  have := Int.emod_lt_of_pos ((val z : Int) + c * 2 ^ 256) (Int.natCast_pos.mpr prime_pos)
  have := val_reduce32 hlo hhi z
  omega

/-- The column sums' value by input word: each factor is a row of R81's matrix as a number. -/
theorem colValue_columnSums (xx : WideVec) :
    colValue (columnSums xx).toList =
      (2 ^ 224 - 2 ^ 192 - 2 ^ 96 + 1 : Int) * xx[8].toNat +
      (-2 ^ 192 - 2 ^ 128 - 2 ^ 96 + 2 ^ 32 + 1 : Int) * xx[9].toNat +
      (-2 ^ 224 - 2 ^ 160 - 2 ^ 128 + 2 ^ 64 + 2 ^ 32 : Int) * xx[10].toNat +
      (-2 ^ 224 - 2 ^ 160 + 2 * 2 ^ 96 + 2 ^ 64 - 1 : Int) * xx[11].toNat +
      (-2 ^ 224 + 2 * 2 ^ 128 + 2 * 2 ^ 96 - 2 ^ 32 - 1 : Int) * xx[12].toNat +
      (-2 ^ 224 + 2 ^ 192 + 2 * 2 ^ 160 + 2 * 2 ^ 128 + 2 ^ 96 - 2 ^ 64 - 2 ^ 32 - 1 : Int) * xx[13].toNat +
      (3 * 2 ^ 192 + 2 * 2 ^ 160 + 2 ^ 128 - 2 ^ 64 - 2 ^ 32 - 1 : Int) * xx[14].toNat +
      (3 * 2 ^ 224 + 2 * 2 ^ 192 + 2 ^ 160 - 2 ^ 96 - 2 ^ 64 - 2 ^ 32 : Int) * xx[15].toNat := by
  simp only [columnSums, colValue, Vector.toList_mk]
  ring

theorem word_le (w : Word) : (w.toNat : Int) ≤ 2 ^ 32 - 1 := by
  have := w.isLt
  omega

/-- R83: the final carry of `combine`, from the words' bounds. -/
theorem combine_carry_bounds (xx : WideVec) : -4 ≤ (combine xx).2 ∧ (combine xx).2 ≤ 4 := by
  have h8 := word_le xx[8]
  have h9 := word_le xx[9]
  have h10 := word_le xx[10]
  have h11 := word_le xx[11]
  have h12 := word_le xx[12]
  have h13 := word_le xx[13]
  have h14 := word_le xx[14]
  have h15 := word_le xx[15]
  have hval := combine_value xx
  rw [colValue_columnSums] at hval
  have hlow := val_lt8 (lowWords xx)
  have hz := val_lt8 (combine xx).1
  zify at hlow hz
  constructor <;> linarith

/-- R88: `reduce` leaves a canonical vector, whatever its input. -/
theorem val_reduce_lt (xx : WideVec) : val (reduce xx) < Config.prime := by
  obtain ⟨hlo, hhi⟩ := combine_carry_bounds xx
  exact val_reduce32_lt (by omega) (by omega) _

end Sys2Proof.Machine
end

section
/-! PROOFS. What the commands leave in their destinations (spec/10_state.md R23, R30): the additive functions' values
(spec/41_additive.md R101 to R106), the bound p for all twelve, and the state a result depends on. -/

namespace Sys2Proof.Machine

/-! ## The additive functions on canonical values -/

section
variable {a b : FieldVec} (ha : val a < Config.prime)
include ha

/-- R101. -/
theorem val_modAdd (hb : val b < Config.prime) : val (modAdd a b) = (val a + val b) % Config.prime := by
  have hsum := add8_value a b
  rw [modAdd, val_correctUp (add8_carry a b) (by omega), ← hsum, Nat.mul_comm]

/-- R102: the borrow is taken exactly where the difference is negative, and gives p back. -/
theorem val_modSub (hb : val b < Config.prime) :
    (val (modSub a b) : Int) = ((val a : Int) - val b) % Config.prime := by
  have hdiff := sub8_value a b
  have hborrow := sub8_borrow a b
  have hp := primeInv_eq
  have hlt := prime_lt
  split at hborrow
  · have hsub := val_subPInvFrom (sub8 a b).1
    rw [modSub, if_pos hborrow]
    exact eq_emod_prime 1 (by omega) (by omega) (by omega)
  · rw [modSub, if_neg (by omega)]
    exact eq_emod_prime 0 (by omega) (by omega) (by omega)

/-- R103. -/
theorem val_modNeg : val (modNeg a) = if val a = 0 then 0 else Config.prime - val a := by
  have hdiff := sub8_value Config.P a
  have hborrow := sub8_borrow Config.P a
  rw [val_P] at hdiff hborrow
  rw [if_neg (by omega)] at hborrow
  simp only [modNeg, isZero8_iff]
  split
  · exact val_words8_of_lt (by decide)
  · omega

/-- R104. -/
theorem val_modTwice : val (modTwice a) = 2 * val a % Config.prime := by
  have hshift := shiftUpBit_value a 0
  rw [modTwice, val_correctUp (shiftUpBit_carry a (Nat.zero_le 1)) (by omega)]
  congr 1
  omega

/-- R106. -/
theorem val_modAddOne : val (modAddOne a) = (val a + 1) % Config.prime := by
  have h1 : val (words 8 1) = 1 := val_words8_of_lt (by decide)
  have hadd := val_modAdd ha (b := words 8 1) (by rw [h1]; decide)
  rw [h1] at hadd
  exact hadd

end

/-- Bit 0 of the least significant word is the value's parity (R22). -/
theorem getLsbD_zero_eq_false_iff (a : FieldVec) : a[0].getLsbD 0 = false ↔ val a % 2 = 0 := by
  have hparity : val a % 2 = a[0].toNat % 2 := by
    rw [val_field a]
    omega
  rw [hparity, BitVec.getLsbD, Nat.testBit_zero, decide_eq_false_iff_not]
  omega

/-- R105. -/
theorem val_modHalf (a : FieldVec) :
    val (modHalf a) = if val a % 2 = 0 then val a / 2 else (val a + Config.prime) / 2 := by
  have hsum := add8_value a Config.P
  rw [val_P] at hsum
  simp only [modHalf, getLsbD_zero_eq_false_iff]
  split
  · rw [shiftDownBit_value a (Nat.zero_le 1)]
    omega
  · rw [shiftDownBit_value _ (add8_carry a Config.P)]
    omega

/-! ## Every result is canonical (R23) -/

theorem val_modSub_lt {a b : FieldVec} (ha : val a < Config.prime) (hb : val b < Config.prime) :
    val (modSub a b) < Config.prime := by
  have := Int.emod_lt_of_pos ((val a : Int) - val b) (Int.natCast_pos.mpr prime_pos)
  have := val_modSub ha hb
  omega

theorem val_modNeg_lt {a : FieldVec} (ha : val a < Config.prime) : val (modNeg a) < Config.prime := by
  rw [val_modNeg ha]
  split <;> omega

theorem val_modHalf_lt {a : FieldVec} (ha : val a < Config.prime) : val (modHalf a) < Config.prime := by
  rw [val_modHalf]
  split <;> omega

/-- R122: every squaring leaves a canonical vector, so a canonical one stays so after any number of them. -/
theorem val_squareTimes_lt (n : Nat) {z : FieldVec} (hz : val z < Config.prime) :
    val (squareTimes n z) < Config.prime := by
  induction n generalizing z with
  | zero => exact hz
  | succ n ih =>
    rw [squareTimes_succ]
    exact ih (val_reduce_lt _)

/-- CARRY is a 32-bit signed number, so R87's fold takes it (R25, R90). -/
theorem val_reduce32_carryOperand_lt (s : State) (z : FieldVec) :
    val (reduce32 s.carryOperand z) < Config.prime := by
  have hlo : -2 ^ 31 ≤ s.carry.toInt := BitVec.le_toInt s.carry
  have hhi : s.carry.toInt < 2 ^ 31 := BitVec.toInt_lt
  exact val_reduce32_lt hlo (Int.le_sub_one_of_lt hhi) z

theorem unaryResult_eq_some {α : Type} {g : α → FieldVec} {a : Option α} {z : FieldVec} :
    unaryResult g a = some z ↔ ∃ x, a = some x ∧ g x = z := Option.map_eq_some_iff

theorem binaryResult_eq_some {g : FieldVec → FieldVec → FieldVec} {a b : Option FieldVec} {z : FieldVec} :
    binaryResult g a b = some z ↔ ∃ x y, a = some x ∧ b = some y ∧ g x y = z := by
  simp [binaryResult, Option.bind_eq_some_iff]

/-- A usable source of the field commands is canonical. -/
theorem State.fieldOperand_lt {s : State} {i : RegNum} {z : FieldVec} (h : s.fieldOperand i = some z) :
    val z < Config.prime := by
  obtain ⟨-, hlt, rfl⟩ := (State.fieldOperand_eq_some s i z).mp h
  exact hlt

theorem val_unaryResult_lt {s : State} {i : RegNum} {g : FieldVec → FieldVec} {z : FieldVec}
    (hg : ∀ {x}, val x < Config.prime → val (g x) < Config.prime) (h : unaryResult g (s.fieldOperand i) = some z) :
    val z < Config.prime := by
  obtain ⟨x, hx, rfl⟩ := unaryResult_eq_some.mp h
  exact hg (State.fieldOperand_lt hx)

theorem val_binaryResult_lt {s : State} {i j : RegNum} {g : FieldVec → FieldVec → FieldVec} {z : FieldVec}
    (hg : ∀ {x y}, val x < Config.prime → val y < Config.prime → val (g x y) < Config.prime)
    (h : binaryResult g (s.fieldOperand i) (s.fieldOperand j) = some z) : val z < Config.prime := by
  obtain ⟨x, y, hx, hy, rfl⟩ := binaryResult_eq_some.mp h
  exact hg (State.fieldOperand_lt hx) (State.fieldOperand_lt hy)

/-- R23: the result of each of the twelve commands is canonical. -/
theorem val_resultOf_lt {i : Instr} {s : State} {z : FieldVec} (h : resultOf i s = some z) : val z < Config.prime := by
  have hmod (n : Nat) : n % Config.prime < Config.prime := Nat.mod_lt n prime_pos
  cases i with
  | add => exact val_binaryResult_lt (fun hx hy => val_modAdd hx hy ▸ hmod _) h
  | sub => exact val_binaryResult_lt val_modSub_lt h
  | neg => exact val_unaryResult_lt val_modNeg_lt h
  | twice => exact val_unaryResult_lt (fun hx => val_modTwice hx ▸ hmod _) h
  | half => exact val_unaryResult_lt val_modHalf_lt h
  | mul => exact val_binaryResult_lt (fun _ _ => val_reduce_lt _) h
  | sqr => exact val_unaryResult_lt (fun _ => val_reduce_lt _) h
  | sqrn _ _ n => exact val_unaryResult_lt (val_squareTimes_lt n.toNat) h
  | addone => exact val_unaryResult_lt (fun hx => val_modAddOne hx ▸ hmod _) h
  | reduce =>
    obtain ⟨x, -, rfl⟩ := unaryResult_eq_some.mp h
    exact val_reduce_lt x
  | red32 =>
    obtain ⟨x, -, rfl⟩ := unaryResult_eq_some.mp h
    exact val_reduce32_carryOperand_lt s x
  | canon =>
    obtain ⟨x, -, rfl⟩ := unaryResult_eq_some.mp h
    exact val_canonise x ▸ hmod _

/-- A command whose precondition holds leaves its result in its destination. -/
theorem reg_destination_of_exec {i : Instr} {s t : State} (hw : i.wellFormed = true) (hr : ready i s = true)
    (h : exec i s = .next t) : resultOf i s = some (t.reg (destination i)) := by
  rw [exec_eq_complete s hw] at h
  cases h
  rw [← isSome_resultOf] at hr
  obtain ⟨z, hz⟩ := Option.isSome_iff_exists.mp hr
  rw [State.reg_complete_self, hz]
  rfl

/-- R43: a host write of a field word stores the word as it is. -/
theorem step_write_fieldAddr {s : State} {i : RegNum} {k : Fin 8} {v : Word} {l : List HostEvent}
    (hp : s.pending = .write (fieldAddr i k) v :: l) : step s = .next (s.dropEvent.setWord i k v) := by
  simp only [step, stepEvent, hp, perform, hostWrite, regAddr_fieldAddr]

/-- Settles O20: the result a ready command leaves is canonical by the case split of `val_resultOf_lt`; a host write is
a `setWord`, which checks nothing. -/
theorem resultsAreCanonical : Obligations.ResultsAreCanonical := by
  refine ⟨fun i s t hw hr h => val_resultOf_lt (reg_destination_of_exec hw hr h), fun s i k v l hp => ?_⟩
  refine ⟨_, step_write_fieldAddr hp, ?_⟩
  rw [State.reg_setWord_self]
  exact Vector.getElem_set_self _

/-! ## What a result depends on (R30) -/

section
variable {s : State} {i : RegNum}

/-- A usable source is read as its register's value, so nothing else of the state enters the result. -/
theorem State.fieldOperand_of_isSome (h : (s.fieldOperand i).isSome = true) : s.fieldOperand i = some (s.reg i) := by
  obtain ⟨z, hz⟩ := Option.isSome_iff_exists.mp h
  obtain ⟨-, -, rfl⟩ := (State.fieldOperand_eq_some s i z).mp hz
  exact hz

theorem State.anyOperand_of_isSome (h : (s.anyOperand i).isSome = true) : s.anyOperand i = some (s.reg i) := by
  obtain ⟨z, hz⟩ := Option.isSome_iff_exists.mp h
  obtain ⟨-, rfl⟩ := (State.anyOperand_eq_some s i z).mp hz
  exact hz

theorem State.wideOperand_of_isSome (h : s.wideOperand.isSome = true) : s.wideOperand = some s.xx := by
  obtain ⟨x, hx⟩ := Option.isSome_iff_exists.mp h
  obtain ⟨-, -, rfl⟩ := (State.wideOperand_eq_some s x).mp hx
  exact hx

end

/-- Settles O23: the two results are equal because both states' operands are the named registers' values, and each result
is what its state's destination holds. -/
theorem resultDependsOnNamedStateOnly : Obligations.ResultDependsOnNamedStateOnly := by
  intro i s s' t t' hw hr hr' hsrc h h'
  suffices hres : resultOf i s' = resultOf i s by
    rw [reg_destination_of_exec hw hr h, reg_destination_of_exec hw hr' h'] at hres
    exact Option.some.inj hres
  cases i with
  | add | sub | mul =>
    obtain ⟨hrega, hregb⟩ := hsrc
    obtain ⟨ha, hb⟩ := (Bool.and_eq_true _ _).mp hr
    obtain ⟨ha', hb'⟩ := (Bool.and_eq_true _ _).mp hr'
    simp only [resultOf, State.fieldOperand_of_isSome ha, State.fieldOperand_of_isSome hb,
      State.fieldOperand_of_isSome ha', State.fieldOperand_of_isSome hb', hrega, hregb]
  | neg | twice | half | sqr | sqrn | addone =>
    simp only [resultOf, State.fieldOperand_of_isSome hr, State.fieldOperand_of_isSome hr', hsrc]
  | reduce => simp only [resultOf, State.wideOperand_of_isSome hr, State.wideOperand_of_isSome hr', hsrc]
  | red32 =>
    obtain ⟨hreg, hcarry⟩ := hsrc
    simp only [resultOf, State.anyOperand_of_isSome hr, State.anyOperand_of_isSome hr', hreg, State.carryOperand, hcarry]
  | canon => simp only [resultOf, State.anyOperand_of_isSome hr, State.anyOperand_of_isSome hr', hsrc]

end Sys2Proof.Machine
end

section
/-! PROOFS. The host register space (spec/20_memory.md R41 to R45, R49): what a host read and a host write do at each
address, and that a word stays what was last written to it until an event touches it. -/

namespace Sys2Proof.Machine

/-! ## Addresses by their number (R41) -/

theorem eq_fieldAddr {a : Addr} {i : RegNum} {k : Fin 8} (h : a.toNat = 8 * i.val + k.val) : a = fieldAddr i k :=
  BitVec.eq_of_toNat_eq (h.trans (fieldAddr_toNat i k).symm)

theorem eq_xxAddr {a : Addr} {k : Fin 16} (h : a.toNat = 0x80 + k.val) : a = xxAddr k :=
  BitVec.eq_of_toNat_eq (h.trans (xxAddr_toNat k).symm)

theorem exists_fieldAddr {a : Addr} (h : a.toNat < 0x80) : ∃ i k, a = fieldAddr i k := by
  have hdiv : a.toNat / 8 < 16 := by omega
  exact ⟨⟨a.toNat / 8, hdiv⟩, ⟨a.toNat % 8, Nat.mod_lt _ (by decide)⟩, eq_fieldAddr (Nat.div_add_mod _ 8).symm⟩

theorem exists_xxAddr {a : Addr} (h : 0x80 ≤ a.toNat ∧ a.toNat ≤ 0x8F) : ∃ k, a = xxAddr k := by
  obtain ⟨hlow, hhigh⟩ := h
  have hlt : a.toNat - 0x80 < 16 := by omega
  exact ⟨⟨a.toNat - 0x80, hlt⟩, eq_xxAddr (Nat.add_sub_cancel' hlow).symm⟩

theorem regAddr_of_unmapped {a : Addr} (h : 0x93 ≤ a.toNat) : regAddr a = .unmapped := by
  have ha := addrOf_regAddr a
  rw [if_neg (by omega)] at ha
  cases hr : regAddr a with
  | unmapped => rfl
  | _ => rw [hr] at ha; cases ha

/-! ## What a host read returns (R42) -/

section
variable (s : State)

theorem State.readValue_fieldAddr {i : RegNum} {k : Fin 8} (hd : s.wordDefined i k = true) :
    s.readValue (fieldAddr i k) = (s.reg i)[k] := by
  simp only [State.readValue, regAddr_fieldAddr, hd, if_true, State.reg]

theorem State.readValue_xxAddr (k : Fin 16) : s.readValue (xxAddr k) = 0#32 := by
  simp only [State.readValue, regAddr_xxAddr]

theorem State.readValue_carryAddr : s.readValue 0x90#8 = s.carry := rfl

theorem State.readValue_cmdAddr : s.readValue 0x91#8 = 0#32 := rfl

theorem State.readValue_statusAddr : s.readValue 0x92#8 = s.status := rfl

theorem State.readValue_unmapped {a : Addr} (h : 0x93 ≤ a.toNat) : s.readValue a = 0#32 := by
  simp only [State.readValue, regAddr_of_unmapped h]

/-! ## What a host write does (R43, R44) -/

theorem hostWrite_fieldAddr (i : RegNum) (k : Fin 8) (v : Word) :
    hostWrite (fieldAddr i k) v s = .next (s.setWord i k v) := by
  simp only [hostWrite, regAddr_fieldAddr]

theorem hostWrite_xxAddr (k : Fin 16) (v : Word) : hostWrite (xxAddr k) v s = .next (s.setXXWord k v) := by
  simp only [hostWrite, regAddr_xxAddr]

theorem hostWrite_carryAddr (v : Word) : hostWrite 0x90#8 v s = .next (s.setCarry v) := rfl

theorem hostWrite_cmdAddr (w : Word) : hostWrite 0x91#8 w s = issue w s := rfl

/-- STATUS and the unmapped addresses ignore a write. -/
theorem hostWrite_ignored {a : Addr} (h : 0x92 ≤ a.toNat) (v : Word) : hostWrite a v s = .next s := by
  rcases h.eq_or_lt with h | h
  · obtain rfl : a = 0x92#8 := BitVec.eq_of_toNat_eq h.symm
    rfl
  · simp only [hostWrite, regAddr_of_unmapped h]

theorem issue_legal {w : Word} {i : Instr} (hd : decode w = .legal i) : issue w s = exec i s := by
  simp only [issue, hd]

theorem issue_illegal {w : Word} {why : IllegalCause} (hd : decode w = .illegal why) :
    issue w s = .next s.raiseIllegal := by
  simp only [issue, hd]

theorem State.getElem_reg_setWord_self (i : RegNum) (k : Fin 8) (v : Word) : ((s.setWord i k v).reg i)[k] = v := by
  rw [State.reg_setWord_self]
  exact Vector.getElem_set_self _

end

/-! ## The step that performs one event -/

section
variable {s : State} {l : List HostEvent}

theorem State.dropEvent_of_pending {e : HostEvent} (hp : s.pending = e :: l) :
    s.dropEvent = { s with pending := l } := by
  rw [State.dropEvent, hp, List.tail_cons]

theorem step_of_pending {e : HostEvent} (hp : s.pending = e :: l) : step s = perform e s.dropEvent := by
  simp only [step, stepEvent, hp]

theorem step_read {a : Addr} (hp : s.pending = .read a :: l) : step s = .next (s.dropEvent.hostRead a) :=
  step_of_pending hp

theorem step_write {a : Addr} {v : Word} (hp : s.pending = .write a v :: l) : step s = hostWrite a v s.dropEvent :=
  step_of_pending hp

theorem step_write_cmd {w : Word} (hp : s.pending = .write 0x91#8 w :: l) : step s = issue w s.dropEvent :=
  (step_write hp).trans (hostWrite_cmdAddr _ w)

/-- The completion a legal command's step ends in. -/
theorem step_command {w : Word} {i : Instr} (hp : s.pending = .write 0x91#8 w :: l) (hd : decode w = .legal i) :
    step s = .next (s.dropEvent.complete (destination i) (resultOf i s.dropEvent)) := by
  rw [step_write_cmd hp, issue_legal _ hd, exec_eq_complete _ (decode_wellFormed hd)]

end

/-- Settles O9: a write to CMD is the issue of its word, whose two cases are decode's. -/
theorem stepRunsDecodedInstruction : Obligations.StepRunsDecodedInstruction := by
  intro s w l hp
  rw [step_write_cmd hp, State.dropEvent_of_pending hp]
  exact ⟨fun _ => issue_legal _, fun _ => issue_illegal _⟩

/-- Settles O10: the word returned is `readValue`, whose value at each address is a lemma of its own. -/
theorem hostReadReturnsMappedWord : Obligations.HostReadReturnsMappedWord := by
  intro s a l hp
  refine ⟨_, s.dropEvent.readValue a, step_read hp, rfl, by simp [hp], ⟨rfl, rfl, rfl, rfl, rfl, rfl⟩, ?_, ?_, ?_, ?_,
    ?_, State.readValue_unmapped _⟩
  · intro i k ha hd
    rw [eq_fieldAddr ha]
    exact State.readValue_fieldAddr s.dropEvent hd
  · intro ha
    obtain ⟨k, rfl⟩ := exists_xxAddr ha
    exact State.readValue_xxAddr _ k
  · intro ha
    obtain rfl : a = 0x90#8 := BitVec.eq_of_toNat_eq ha
    exact State.readValue_carryAddr _
  · intro ha
    obtain rfl : a = 0x91#8 := BitVec.eq_of_toNat_eq ha
    exact State.readValue_cmdAddr _
  · intro ha
    obtain rfl : a = 0x92#8 := BitVec.eq_of_toNat_eq ha
    exact State.readValue_statusAddr _

/-- Settles O11: at each address the step is one operation of the state, whose effect and frame are its own lemmas. -/
theorem hostWriteStoresMappedWord : Obligations.HostWriteStoresMappedWord := by
  intro s a v l hp
  have hstep := step_write hp
  refine ⟨?_, ?_, ?_, ?_, ?_⟩
  · intro i k ha
    rw [eq_fieldAddr ha, hostWrite_fieldAddr] at hstep
    refine ⟨_, hstep, State.getElem_reg_setWord_self _ i k v, by simp [State.wordDefined_setWord],
      fun j m hne => ⟨?_, ?_⟩, rfl, rfl, rfl, rfl⟩
    · exact State.getElem_reg_setWord_of_ne _ v hne
    · rw [State.wordDefined_setWord, decide_eq_false hne]
      rfl
  · intro k ha
    rw [eq_xxAddr ha, hostWrite_xxAddr] at hstep
    refine ⟨_, hstep, Vector.getElem_set_self _, Vector.getElem_set_self _, fun m hne => ?_, rfl, rfl, rfl, rfl⟩
    have hval : k.val ≠ m.val := fun e => hne (Fin.ext e.symm)
    exact ⟨Vector.getElem_set_ne k.isLt m.isLt hval, Vector.getElem_set_ne k.isLt m.isLt hval⟩
  · intro ha
    obtain rfl : a = 0x90#8 := BitVec.eq_of_toNat_eq ha
    exact ⟨_, hstep, rfl, rfl, rfl, rfl, rfl, rfl⟩
  · intro ha
    obtain rfl : a = 0x91#8 := BitVec.eq_of_toNat_eq ha
    rw [← State.dropEvent_of_pending hp]
    exact step_write_cmd hp
  · intro ha
    rw [hstep, hostWrite_ignored _ ha, State.dropEvent_of_pending hp]

/-! ## The word a read is sure to return (R49) -/

/-- The state holds the word v at an address the host can read it back from: a defined field word, or CARRY. -/
inductive State.Holds (s : State) (v : Word) : Addr → Prop
  | field (i : RegNum) (k : Fin 8) (hd : s.wordDefined i k = true) (hv : (s.reg i)[k] = v) : s.Holds v (fieldAddr i k)
  | carry (hv : s.carry = v) : s.Holds v 0x90#8

section
variable {s : State} {a : Addr} {v : Word}

theorem State.Holds.readValue (h : s.Holds v a) : s.readValue a = v := by
  cases h with
  | field i k hd hv => rw [State.readValue_fieldAddr s hd, hv]
  | carry hv => exact hv

/-- `Holds` speaks of the registers, their defined words and CARRY only. -/
theorem State.Holds.congr {t : State} (h : s.Holds v a) (hf : t.f = s.f) (hfd : t.fDef = s.fDef)
    (hc : t.carry = s.carry) : t.Holds v a := by
  cases h with
  | field i k hd hv => exact .field i k (by rw [State.wordDefined_congr hfd, hd]) (by rw [State.reg_congr hf, hv])
  | carry hv => exact .carry (hc.trans hv)

theorem State.Holds.dropEvent (h : s.Holds v a) : s.dropEvent.Holds v a := h.congr rfl rfl rfl

/-- A write of another field word leaves the word. -/
theorem State.Holds.setWord (h : s.Holds v a) {j : RegNum} {m : Fin 8} (w : Word) (hne : fieldAddr j m ≠ a) :
    (s.setWord j m w).Holds v a := by
  cases h with
  | carry hv => exact .carry hv
  | field i k hd hv =>
    have hother : ¬ (i = j ∧ k = m) := by
      rintro ⟨rfl, rfl⟩
      exact hne rfl
    refine .field i k ?_ ((State.getElem_reg_setWord_of_ne s w hother).trans hv)
    rw [State.wordDefined_setWord, hd, Bool.or_true]

/-- A write of CARRY leaves every other word. -/
theorem State.Holds.setCarry (h : s.Holds v a) (w : Word) (hne : 0x90#8 ≠ a) : (s.setCarry w).Holds v a := by
  cases h with
  | field i k hd hv => exact .field i k hd hv
  | carry _ => exact absurd rfl hne

/-- A command leaves every word outside its destination. -/
theorem State.Holds.complete (h : s.Holds v a) {rd : RegNum} (r : Option FieldVec) (hne : ∀ k, a ≠ fieldAddr rd k) :
    (s.complete rd r).Holds v a := by
  cases h with
  | carry hv => exact .carry hv
  | field i k hd hv =>
    have hother : i ≠ rd := by
      rintro rfl
      exact hne k rfl
    refine .field i k ?_ ?_
    · rw [State.wordDefined_complete, hd, Bool.or_true]
    · rw [State.reg_complete_of_ne s r hother, hv]

/-- A command leaves its result in its destination's words. -/
theorem State.holds_complete_self (s : State) (rd : RegNum) (r : Option FieldVec) (k : Fin 8) :
    (s.complete rd r).Holds ((s.complete rd r).reg rd)[k] (fieldAddr rd k) :=
  .field rd k (by simp [State.wordDefined_complete]) rfl

/-- The step that performs a host write of a field word or of CARRY leaves the word held, and what was returned as it
was. -/
theorem exists_step_write_holds {l : List HostEvent} (hp : s.pending = .write a v :: l)
    (ha : a.toNat < 0x80 ∨ a.toNat = 0x90) :
    ∃ t, step s = .next t ∧ t.Holds v a ∧ t.pending = l ∧ t.returned = s.returned := by
  have hstep := step_write hp
  have hpend : s.dropEvent.pending = l := by rw [State.dropEvent_pending, hp, List.tail_cons]
  rcases ha with ha | ha
  · obtain ⟨i, k, rfl⟩ := exists_fieldAddr ha
    rw [hostWrite_fieldAddr] at hstep
    exact ⟨_, hstep, .field i k (by simp [State.wordDefined_setWord]) (State.getElem_reg_setWord_self _ i k v), hpend,
      rfl⟩
  · obtain rfl : a = 0x90#8 := BitVec.eq_of_toNat_eq ha
    exact ⟨_, hstep, .carry rfl, hpend, rfl⟩

/-- The step that performs a read of a word the state holds returns it. -/
theorem exists_step_read_returned {l : List HostEvent} (h : s.Holds v a) (hp : s.pending = .read a :: l) :
    ∃ u, step s = .next u ∧ u.returned = s.returned ++ [v] :=
  ⟨_, step_read hp, by rw [State.hostRead_returned, h.dropEvent.readValue, State.dropEvent_returned]⟩

end

/-- Settles O12: the first step ends in a state that holds the word, and the second reads it. -/
theorem readReturnsLastWrite : Obligations.ReadReturnsLastWrite := by
  constructor
  · intro s a v l hp ha
    obtain ⟨t, hstep, hholds, hpend, hret⟩ := exists_step_write_holds hp ha
    obtain ⟨u, hread, hu⟩ := exists_step_read_returned hholds hpend
    exact ⟨t, u, hstep, hread, hret ▸ hu⟩
  · intro s w i k l hd hp
    have hstep := step_command hp hd
    have hholds := State.holds_complete_self s.dropEvent (destination i) (resultOf i s.dropEvent) k
    obtain ⟨u, hread, hu⟩ := exists_step_read_returned hholds
      (by rw [State.complete_pending, State.dropEvent_pending, hp, List.tail_cons])
    refine ⟨_, u, ?_, hstep, hread, hu⟩
    rw [← State.dropEvent_of_pending hp]
    exact exec_eq_complete _ (decode_wellFormed hd)

/-! ## Events that do not touch a word (R49 (3)) -/

/-- An untouching write has another address. -/
theorem ne_of_not_touches {a b : Addr} {w : Word} (h : touches a (.write b w) = false) : b ≠ a := by
  rintro rfl
  simp [touches] at h

/-- An untouching legal command has another register as its destination. -/
theorem ne_destination_of_not_touches {a : Addr} {w : Word} {c : Instr} (h : touches a (.write cmdAddr w) = false)
    (hd : decode w = .legal c) (k : Fin 8) : a ≠ fieldAddr (destination c) k := by
  rintro rfl
  simp [touches, hd, regAddr_fieldAddr] at h

/-- A step takes the first event off the host's list. -/
theorem Effect.pending_eq {s t : State} (h : Effect s t) : t.pending = s.pending.tail := by
  cases h with
  | idle hp e => rw [e, hp, List.tail_nil]
  | read _ _ _ e | reset _ _ e | field _ _ _ _ _ e | xx _ _ _ _ e | carry _ _ _ e | command _ _ _ _ _ e
  | illegal _ _ _ _ _ e | ignored _ _ _ _ _ e =>
    subst e
    rfl

/-- A step whose event does not touch the word leaves it held. -/
theorem Effect.holds_of_not_touches {s t : State} {a : Addr} {v : Word} (heff : Effect s t) (h : s.Holds v a)
    (hno : ∀ e ∈ s.pending.head?, touches a e = false) : t.Holds v a := by
  cases heff with
  | reset l hp _ => exact absurd (hno .reset (by rw [hp]; rfl)) (by simp [touches])
  | field j m w l hp e =>
    subst e
    exact h.dropEvent.setWord w (ne_of_not_touches (hno _ (by rw [hp]; rfl)))
  | carry w l hp e =>
    subst e
    exact h.dropEvent.setCarry w (ne_of_not_touches (hno _ (by rw [hp]; rfl)))
  | command c w l hp hd e =>
    subst e
    exact h.dropEvent.complete _ (ne_destination_of_not_touches (hno _ (by rw [hp]; rfl)) hd)
  | idle _ e | read _ _ _ e | xx _ _ _ _ e | illegal _ _ _ _ _ e | ignored _ _ _ _ _ e =>
    subst e
    exact h.congr rfl rfl rfl

/-- A run over events none of which touches the word leaves it held. -/
theorem exists_runSteps_holds {a : Addr} {v : Word} {mid l : List HostEvent} {s : State} (h : s.Holds v a)
    (hp : s.pending = mid ++ l) (hmid : ∀ e ∈ mid, touches a e = false) :
    ∃ t, runSteps mid.length s = .next t ∧ t.pending = l ∧ t.Holds v a := by
  induction mid generalizing s with
  | nil => exact ⟨s, rfl, hp, h⟩
  | cons e mid ih =>
    obtain ⟨he, hmid⟩ := List.forall_mem_cons.mp hmid
    obtain ⟨r, hstep, heff⟩ := step_effect s
    have hholds : r.Holds v a := heff.holds_of_not_touches h (by simpa [hp] using he)
    obtain ⟨t, hrun, ht⟩ := ih hholds (by rw [heff.pending_eq, hp]; rfl) hmid
    exact ⟨t, (runSteps_succ _ hstep).trans hrun, ht⟩

/-- After a step that leaves the word held and then a run over untouching events, a read returns the word. -/
theorem exists_runSteps_read_returned {a : Addr} {v : Word} {mid l : List HostEvent} {s r : State}
    (hstep : step s = .next r) (h : r.Holds v a) (hp : r.pending = mid ++ .read a :: l)
    (hmid : ∀ e ∈ mid, touches a e = false) :
    ∃ t u, runSteps (mid.length + 1) s = .next t ∧ t.pending = .read a :: l ∧ step t = .next u ∧
      u.returned = t.returned ++ [v] := by
  obtain ⟨t, hrun, hpend, hholds⟩ := exists_runSteps_holds h hp hmid
  obtain ⟨u, hread, hu⟩ := exists_step_read_returned hholds hpend
  exact ⟨t, u, (runSteps_succ _ hstep).trans hrun, hpend, hread, hu⟩

/-- Settles O53, by induction on the events in between: the first step ends in a state that holds the word, each event
in between leaves it held, and the read returns it. -/
theorem readReturnsLastWriteLater : Obligations.ReadReturnsLastWriteLater := by
  constructor
  · intro s a v mid l hp ha hmid
    obtain ⟨r, hstep, hholds, hpend, -⟩ := exists_step_write_holds hp ha
    exact exists_runSteps_read_returned hstep hholds hpend hmid
  · intro s r w i k mid l hd hp hmid hstep
    have hpend : r.pending = mid ++ .read (fieldAddr (destination i) k) :: l := by
      rw [(effect_of_step hstep).pending_eq, hp, List.tail_cons]
    refine exists_runSteps_read_returned hstep ?_ hpend hmid
    rw [step_command hp hd] at hstep
    cases hstep
    exact State.holds_complete_self _ _ _ k

end Sys2Proof.Machine
end

section
/-! PROOFS. Encoding (spec/30_encoding.md R61 to R69): each of the four formats in terms of the word's fields, the round
trip, the opcode map's masks, and the count of legal words. -/

namespace Sys2Proof.Machine

open Sys2Proof.Field

/-! ## Register fields -/

@[simp] theorem ofReg_rd (w : Word) : ofReg (rd w) = rdBits w := ofReg_reg _

@[simp] theorem ofReg_rs1 (w : Word) : ofReg (rs1 w) = rs1Bits w := ofReg_reg _

@[simp] theorem ofReg_rs2 (w : Word) : ofReg (rs2 w) = rs2Bits w := ofReg_reg _

@[simp] theorem rd_pack (o : BitVec 8) (d : RegNum) (a b : BitVec 4) (n : BitVec 12) :
    rd (pack o (ofReg d) a b n) = d := by
  rw [rd, rdBits_pack, reg_ofReg]

@[simp] theorem rs1_pack (o : BitVec 8) (d : BitVec 4) (a : RegNum) (b : BitVec 4) (n : BitVec 12) :
    rs1 (pack o d (ofReg a) b n) = a := by
  rw [rs1, rs1Bits_pack, reg_ofReg]

@[simp] theorem rs2_pack (o : BitVec 8) (d a : BitVec 4) (b : RegNum) (n : BitVec 12) :
    rs2 (pack o d a (ofReg b) n) = b := by
  rw [rs2, rs2Bits_pack, reg_ofReg]

/-- A word is determined by its fields (R61). -/
theorem pack_eq_pack_iff {o o' : BitVec 8} {d a b d' a' b' : BitVec 4} {n n' : BitVec 12} :
    pack o d a b n = pack o' d' a' b' n' ↔ o = o' ∧ d = d' ∧ a = a' ∧ b = b' ∧ n = n' := by
  constructor
  · intro h
    refine ⟨?_, ?_, ?_, ?_, ?_⟩
    · simpa only [op_pack] using congrArg op h
    · simpa only [rdBits_pack] using congrArg rdBits h
    · simpa only [rs1Bits_pack] using congrArg rs1Bits h
    · simpa only [rs2Bits_pack] using congrArg rs2Bits h
    · simpa only [imm_pack] using congrArg imm h
  · rintro ⟨rfl, rfl, rfl, rfl, rfl⟩
    rfl

/-! ## The four formats (R62) -/

section
variable {w : Word} {i : Instr}

theorem decodeR3_eq_legal_iff {mk : RegNum → RegNum → RegNum → Instr} :
    decodeR3 mk w = .legal i ↔ imm w = 0 ∧ mk (rd w) (rs1 w) (rs2 w) = i := by
  rw [decodeR3]
  split <;> simp_all

theorem decodeR2_eq_legal_iff {mk : RegNum → RegNum → Instr} :
    decodeR2 mk w = .legal i ↔ (rs2Bits w = 0 ∧ imm w = 0) ∧ mk (rd w) (rs1 w) = i := by
  simp only [decodeR2, ne_eq, ← not_and_or]
  split <;> simp_all

theorem decodeR2N_eq_legal_iff {mk : RegNum → RegNum → BitVec 12 → Instr} :
    decodeR2N mk w = .legal i ↔ (rs2Bits w = 0 ∧ imm w ≠ 0) ∧ mk (rd w) (rs1 w) (imm w) = i := by
  rw [decodeR2N]
  split
  · simp_all
  · split <;> simp_all

theorem decodeR1_eq_legal_iff {mk : RegNum → Instr} :
    decodeR1 mk w = .legal i ↔ (rs1Bits w = 0 ∧ rs2Bits w = 0 ∧ imm w = 0) ∧ mk (rd w) = i := by
  simp only [decodeR1, ne_eq, ← not_and_or]
  split <;> simp_all

end

/-! ## The round trip (R68) -/

/-- A command's word carries its format's fields, so decoding finds them again. -/
theorem decode_encode {i : Instr} (h : i.wellFormed = true) : decode (encode i) = .legal i := by
  cases i with
  | add | sub | mul =>
    simp only [encode, decode, op_pack]
    exact decodeR3_eq_legal_iff.mpr ⟨imm_pack _ _ _ _ _, by simp⟩
  | neg | twice | half | sqr | addone | red32 | canon =>
    simp only [encode, decode, op_pack]
    exact decodeR2_eq_legal_iff.mpr ⟨⟨rs2Bits_pack _ _ _ _ _, imm_pack _ _ _ _ _⟩, by simp⟩
  | sqrn d a n =>
    simp only [encode, decode, op_pack]
    have hn : n ≠ 0 := by simpa [Instr.wellFormed] using h
    exact decodeR2N_eq_legal_iff.mpr
      ⟨⟨rs2Bits_pack _ _ _ _ _, by rwa [imm_pack]⟩, by simp [imm_pack]⟩
  | reduce =>
    simp only [encode, decode, op_pack]
    exact decodeR1_eq_legal_iff.mpr
      ⟨⟨rs1Bits_pack _ _ _ _ _, rs2Bits_pack _ _ _ _ _, imm_pack _ _ _ _ _⟩, by simp⟩

theorem op_eq_ofNat {w : Word} {k : Nat} (h : (op w).toNat = k) : op w = BitVec.ofNat 8 k := by
  rw [← h, BitVec.ofNat_toNat, BitVec.setWidth_eq]

/-- Each row of `decode` fixes the op, and its format the unused fields, so the word is the one `encode` packs. -/
theorem encode_of_decode {w : Word} {i : Instr} (h : decode w = .legal i) : encode i = w := by
  rw [← pack_fields w]
  unfold decode at h
  split at h
  case h_1 hop | h_2 hop | h_6 hop =>
    obtain ⟨himm, rfl⟩ := decodeR3_eq_legal_iff.mp h
    simp [encode, op_eq_ofNat hop, himm]
  case h_3 hop | h_4 hop | h_5 hop | h_7 hop | h_9 hop | h_11 hop | h_12 hop =>
    obtain ⟨⟨hrs2, himm⟩, rfl⟩ := decodeR2_eq_legal_iff.mp h
    simp [encode, op_eq_ofNat hop, hrs2, himm]
  case h_8 hop =>
    obtain ⟨⟨hrs2, -⟩, rfl⟩ := decodeR2N_eq_legal_iff.mp h
    simp [encode, op_eq_ofNat hop, hrs2]
  case h_10 hop =>
    obtain ⟨⟨hrs1, hrs2, himm⟩, rfl⟩ := decodeR1_eq_legal_iff.mp h
    simp [encode, op_eq_ofNat hop, hrs1, hrs2, himm]
  case h_13 => cases h

/-- A word decodes to a command exactly when it is that command's own word. -/
theorem decode_eq_legal_iff {w : Word} {i : Instr} : decode w = .legal i ↔ encode i = w ∧ i.wellFormed = true := by
  constructor
  · exact fun h => ⟨encode_of_decode h, decode_wellFormed h⟩
  · rintro ⟨rfl, h⟩
    exact decode_encode h

/-- Settles O6: each format's fields are read back as packed, and each row of `decode` fixes the op and the unused
fields. -/
theorem decodeAndEncodeAgree : Obligations.DecodeAndEncodeAgree :=
  ⟨fun _ => decode_encode, fun _ _ => decode_eq_legal_iff.mp⟩

/-- Settles O3: R69's words are the encodings of the commands it writes beside them. -/
theorem exampleWordsDecode : Obligations.ExampleWordsDecode :=
  ⟨decode_encode (i := .add 2 0 1) rfl, decode_encode (i := .sub 3 0 1) rfl, decode_encode (i := .neg 4 0) rfl,
    decode_encode (i := .twice 6 1) rfl, decode_encode (i := .half 7 6) rfl, decode_encode (i := .mul 2 0 1) rfl,
    decode_encode (i := .sqr 3 2) rfl, decode_encode (i := .sqrn 4 0 8) rfl, decode_encode (i := .addone 8 1) rfl,
    decode_encode (i := .reduce 0) rfl, decode_encode (i := .red32 2 1) rfl, decode_encode (i := .canon 4 3) rfl⟩

/-! ## The word as a number (R61) -/

theorem packR3_toNat (o : BitVec 8) (d a b : RegNum) :
    (pack o (ofReg d) (ofReg a) (ofReg b) 0).toNat
      = o.toNat * 2 ^ 24 + d.val * 2 ^ 20 + a.val * 2 ^ 16 + b.val * 2 ^ 12 := by
  simp [pack_toNat, ofReg_toNat]

theorem packR2N_toNat (o : BitVec 8) (d a : RegNum) (n : BitVec 12) :
    (pack o (ofReg d) (ofReg a) 0 n).toNat = o.toNat * 2 ^ 24 + d.val * 2 ^ 20 + a.val * 2 ^ 16 + n.toNat := by
  simp [pack_toNat, ofReg_toNat]

theorem packR2_toNat (o : BitVec 8) (d a : RegNum) :
    (pack o (ofReg d) (ofReg a) 0 0).toNat = o.toNat * 2 ^ 24 + d.val * 2 ^ 20 + a.val * 2 ^ 16 := by
  simp [pack_toNat, ofReg_toNat]

theorem packR1_toNat (o : BitVec 8) (d : RegNum) :
    (pack o (ofReg d) 0 0 0).toNat = o.toNat * 2 ^ 24 + d.val * 2 ^ 20 := by
  simp [pack_toNat, ofReg_toNat]

/-- Settles O5: each command's word is its format's sum. -/
theorem encodePlacesFields : Obligations.EncodePlacesFields := fun d a b n =>
  ⟨packR3_toNat 0x01 d a b, packR3_toNat 0x02 d a b, packR2_toNat 0x03 d a, packR2_toNat 0x04 d a,
    packR2_toNat 0x05 d a, packR3_toNat 0x06 d a b, packR2_toNat 0x07 d a, packR2N_toNat 0x08 d a n,
    packR2_toNat 0x09 d a, packR1_toNat 0x0A d, packR2_toNat 0x0B d a, packR2_toNat 0x0C d a⟩

/-! ## Decoding as an option -/

/-- Legal exactly where p holds, and then as c. -/
theorem toOption_eq_ite {d : Decoded} {p : Prop} [Decidable p] {c : Instr} (h : ∀ i, d = .legal i ↔ p ∧ c = i) :
    d.toOption = if p then some c else none := by
  cases d with
  | legal j =>
    obtain ⟨hp, rfl⟩ := (h j).mp rfl
    rw [if_pos hp, Decoded.toOption]
  | illegal why =>
    have hp : ¬ p := fun hp => by simpa using (h c).mpr ⟨hp, rfl⟩
    rw [if_neg hp, Decoded.toOption]

section
variable (w : Word)

theorem toOption_decodeR3 (mk : RegNum → RegNum → RegNum → Instr) :
    (decodeR3 mk w).toOption = if imm w = 0 then some (mk (rd w) (rs1 w) (rs2 w)) else none :=
  toOption_eq_ite fun _ => decodeR3_eq_legal_iff

theorem toOption_decodeR2 (mk : RegNum → RegNum → Instr) :
    (decodeR2 mk w).toOption = if rs2Bits w = 0 ∧ imm w = 0 then some (mk (rd w) (rs1 w)) else none :=
  toOption_eq_ite fun _ => decodeR2_eq_legal_iff

theorem toOption_decodeR2N (mk : RegNum → RegNum → BitVec 12 → Instr) :
    (decodeR2N mk w).toOption = if rs2Bits w = 0 ∧ imm w ≠ 0 then some (mk (rd w) (rs1 w) (imm w)) else none :=
  toOption_eq_ite fun _ => decodeR2N_eq_legal_iff

theorem toOption_decodeR1 (mk : RegNum → Instr) :
    (decodeR1 mk w).toOption = if rs1Bits w = 0 ∧ rs2Bits w = 0 ∧ imm w = 0 then some (mk (rd w)) else none :=
  toOption_eq_ite fun _ => decodeR1_eq_legal_iff

end

theorem bits_eq_zero_iff {n : Nat} (b : BitVec n) : b = 0 ↔ b.toNat = 0 := BitVec.toNat_inj.symm

/-- Settles O4: the numbers of the statement are the word's fields, and each row of `decode` answers as its format
does. -/
theorem decodeReadsWordFields : Obligations.DecodeReadsWordFields := by
  intro w op' rs2' imm' rd' ra rb hop hrd hra hrs2 hrb himm
  rw [← op_toNat] at hop
  rw [← rs2Bits_toNat] at hrs2
  rw [← imm_toNat] at himm
  obtain rfl : rd' = rd w := Fin.ext (hrd.trans (rdBits_toNat w).symm)
  obtain rfl : ra = rs1 w := Fin.ext (hra.trans (rs1Bits_toNat w).symm)
  obtain rfl : rb = rs2 w := Fin.ext (hrb.trans hrs2)
  subst hop hrs2 himm
  have hrs1 : (rs1 w).val = (rs1Bits w).toNat := rfl
  simp only [hrs1, BitVec.ofNat_toNat, BitVec.setWidth_eq, ne_eq, ← bits_eq_zero_iff]
  unfold decode
  split
  case h_1 hop | h_2 hop | h_6 hop => simp [hop, toOption_decodeR3]
  case h_3 hop | h_4 hop | h_5 hop | h_7 hop | h_9 hop | h_11 hop | h_12 hop => simp [hop, toOption_decodeR2]
  case h_8 hop => simp [hop, toOption_decodeR2N]
  case h_10 hop => simp [hop, toOption_decodeR1]
  case h_13 => simp_all [Decoded.toOption]

/-! ## The opcode map (R63) -/

theorem and_pack (w : Word) (o : BitVec 8) (d a b : BitVec 4) (n : BitVec 12) :
    w &&& pack o d a b n = pack (op w &&& o) (rdBits w &&& d) (rs1Bits w &&& a) (rs2Bits w &&& b) (imm w &&& n) := by
  rw [← pack_and_pack, pack_fields]

theorem and_maskR3_iff (w : Word) (o : BitVec 8) :
    w &&& 0xFF000FFF#32 = pack o 0 0 0 0 ↔ op w = o ∧ imm w = 0 := by
  rw [show (0xFF000FFF#32 : Word) = pack (BitVec.allOnes 8) 0 0 0 (BitVec.allOnes 12) by decide, and_pack,
    pack_eq_pack_iff]
  simp only [BitVec.and_allOnes, BitVec.ofNat_eq_ofNat, BitVec.and_zero, true_and]

theorem and_maskR2_iff (w : Word) (o : BitVec 8) :
    w &&& 0xFF00FFFF#32 = pack o 0 0 0 0 ↔ op w = o ∧ rs2Bits w = 0 ∧ imm w = 0 := by
  rw [show (0xFF00FFFF#32 : Word) = pack (BitVec.allOnes 8) 0 0 (BitVec.allOnes 4) (BitVec.allOnes 12) by decide,
    and_pack, pack_eq_pack_iff]
  simp only [BitVec.and_allOnes, BitVec.ofNat_eq_ofNat, BitVec.and_zero, true_and]

theorem and_maskR2N_iff (w : Word) (o : BitVec 8) :
    w &&& 0xFF00F000#32 = pack o 0 0 0 0 ↔ op w = o ∧ rs2Bits w = 0 := by
  rw [show (0xFF00F000#32 : Word) = pack (BitVec.allOnes 8) 0 0 (BitVec.allOnes 4) 0 by decide, and_pack,
    pack_eq_pack_iff]
  simp only [BitVec.and_allOnes, BitVec.ofNat_eq_ofNat, BitVec.and_zero, true_and, and_true]

theorem and_maskR1_iff (w : Word) (o : BitVec 8) :
    w &&& 0xFF0FFFFF#32 = pack o 0 0 0 0 ↔ op w = o ∧ rs1Bits w = 0 ∧ rs2Bits w = 0 ∧ imm w = 0 := by
  rw [show (0xFF0FFFFF#32 : Word) =
    pack (BitVec.allOnes 8) 0 (BitVec.allOnes 4) (BitVec.allOnes 4) (BitVec.allOnes 12) by decide, and_pack,
    pack_eq_pack_iff]
  simp only [BitVec.and_allOnes, BitVec.ofNat_eq_ofNat, BitVec.and_zero, true_and]

/-! The words a format packs from an op are those its mask selects. -/

section
variable {o : BitVec 8} {w : Word}

theorem exists_packR3_iff :
    (∃ d a b, pack o (ofReg d) (ofReg a) (ofReg b) 0 = w) ↔ w &&& 0xFF000FFF#32 = pack o 0 0 0 0 := by
  rw [and_maskR3_iff]
  constructor
  · rintro ⟨d, a, b, rfl⟩
    exact ⟨op_pack _ _ _ _ _, imm_pack _ _ _ _ _⟩
  · rintro ⟨rfl, himm⟩
    exact ⟨rd w, rs1 w, rs2 w, by simpa [himm] using pack_fields w⟩

theorem exists_packR2_iff : (∃ d a, pack o (ofReg d) (ofReg a) 0 0 = w) ↔ w &&& 0xFF00FFFF#32 = pack o 0 0 0 0 := by
  rw [and_maskR2_iff]
  constructor
  · rintro ⟨d, a, rfl⟩
    exact ⟨op_pack _ _ _ _ _, rs2Bits_pack _ _ _ _ _, imm_pack _ _ _ _ _⟩
  · rintro ⟨rfl, hrs2, himm⟩
    exact ⟨rd w, rs1 w, by simpa [hrs2, himm] using pack_fields w⟩

theorem exists_packR2N_iff :
    (∃ d a n, pack o (ofReg d) (ofReg a) 0 n = w ∧ (n != 0) = true) ↔
      w &&& 0xFF00F000#32 = pack o 0 0 0 0 ∧ imm w ≠ 0 := by
  rw [and_maskR2N_iff]
  constructor
  · rintro ⟨d, a, n, rfl, hn⟩
    rw [bne_iff_ne] at hn
    exact ⟨⟨op_pack _ _ _ _ _, rs2Bits_pack _ _ _ _ _⟩, by rwa [imm_pack]⟩
  · rintro ⟨⟨rfl, hrs2⟩, himm⟩
    exact ⟨rd w, rs1 w, imm w, by simpa [hrs2] using pack_fields w, bne_iff_ne.mpr himm⟩

theorem exists_packR1_iff : (∃ d, pack o (ofReg d) 0 0 0 = w) ↔ w &&& 0xFF0FFFFF#32 = pack o 0 0 0 0 := by
  rw [and_maskR1_iff]
  constructor
  · rintro ⟨d, rfl⟩
    exact ⟨op_pack _ _ _ _ _, rs1Bits_pack _ _ _ _ _, rs2Bits_pack _ _ _ _ _, imm_pack _ _ _ _ _⟩
  · rintro ⟨rfl, hrs1, hrs2, himm⟩
    exact ⟨rd w, by simpa [hrs1, hrs2, himm] using pack_fields w⟩

end

/-- Settles O7: a word decodes to a command exactly when it is the command's own word, and each row's mask and match
select the words its format packs from the row's op. -/
theorem wordSpellsCommandByMask : Obligations.WordSpellsCommandByMask := by
  intro w
  simp only [decode_eq_legal_iff, Instr.wellFormed, and_true]
  exact ⟨exists_packR3_iff, exists_packR3_iff, exists_packR2_iff, exists_packR2_iff, exists_packR2_iff,
    exists_packR3_iff, exists_packR2_iff, exists_packR2N_iff, exists_packR2_iff, exists_packR1_iff, exists_packR2_iff,
    exists_packR2_iff⟩

/-! ## The number of legal words (R66) -/

/-- The fields of a word below its op. -/
abbrev Operands := RegNum × RegNum × RegNum × Fin (2 ^ 12)

/-- The fields of w below its op. -/
def operands (w : Word) : Operands := (rd w, rs1 w, rs2 w, (imm w).toFin)

/-- A word is its op and the fields below it (R61). -/
def wordEquiv : Word ≃ (_ : BitVec 8) × Operands where
  toFun w := ⟨op w, operands w⟩
  invFun x := pack x.1 (ofReg x.2.1) (ofReg x.2.2.1) (ofReg x.2.2.2.1) (BitVec.ofFin x.2.2.2.2)
  left_inv w := by simpa [operands] using pack_fields w
  right_inv x := by simp [operands, op_pack, imm_pack]

/-- Format R3: any registers, no immediate (R62). -/
def operandsR3 : Finset Operands := Finset.univ ×ˢ Finset.univ ×ˢ Finset.univ ×ˢ {0}

/-- Format R2: any rd and rs1, the other fields zero (R62). -/
def operandsR2 : Finset Operands := Finset.univ ×ˢ Finset.univ ×ˢ {0} ×ˢ {0}

/-- Format R2N: any rd and rs1, rs2 zero and the immediate not (R62). -/
def operandsR2N : Finset Operands := Finset.univ ×ˢ Finset.univ ×ˢ {0} ×ˢ {0}ᶜ

/-- Format R1: any rd, the other fields zero (R62). -/
def operandsR1 : Finset Operands := Finset.univ ×ˢ {0} ×ˢ {0} ×ˢ {0}

/-- The operands of the legal words with an op, by the op's format (R63). -/
def legalOperands (o : Nat) : Finset Operands :=
  match o with
  | 0x01 | 0x02 | 0x06 => operandsR3
  | 0x03 | 0x04 | 0x05 | 0x07 | 0x09 | 0x0B | 0x0C => operandsR2
  | 0x08 => operandsR2N
  | 0x0A => operandsR1
  | _ => ∅

/-- The twelve assigned ops (R63). -/
def legalOps : Finset (BitVec 8) := {1, 2, 3, 4, 5, 6, 7, 8, 9, 10, 11, 12}

/-- The legal words, op by op. -/
def legalWords : Finset Word := (legalOps.sigma fun o => legalOperands o.toNat).map wordEquiv.symm.toEmbedding

theorem card_operandsR3 : operandsR3.card = 2 ^ 12 := by
  simp [operandsR3]

theorem card_operandsR2 : operandsR2.card = 2 ^ 8 := by
  simp [operandsR2]

theorem card_operandsR2N : operandsR2N.card = 2 ^ 8 * 4095 := by
  have hcount : ({0}ᶜ : Finset (Fin (2 ^ 12))).card = 2 ^ 12 - 1 := by
    rw [Finset.card_compl, Finset.card_singleton, Fintype.card_fin]
  simp [operandsR2N, Finset.card_product, hcount]

theorem card_operandsR1 : operandsR1.card = 2 ^ 4 := by
  simp [operandsR1]

/-- How many legal words have an op, by the op's format (R66). -/
def legalCount (o : Nat) : Nat :=
  match o with
  | 0x01 | 0x02 | 0x06 => 2 ^ 12
  | 0x03 | 0x04 | 0x05 | 0x07 | 0x09 | 0x0B | 0x0C => 2 ^ 8
  | 0x08 => 2 ^ 8 * 4095
  | 0x0A => 2 ^ 4
  | _ => 0

theorem card_legalOperands (o : Nat) : (legalOperands o).card = legalCount o := by
  unfold legalOperands legalCount
  split
  case h_1 | h_2 | h_3 => exact card_operandsR3
  case h_4 | h_5 | h_6 | h_7 | h_8 | h_9 | h_10 => exact card_operandsR2
  case h_11 => exact card_operandsR2N
  case h_12 => exact card_operandsR1
  case h_13 => exact Finset.card_empty

theorem card_legalWords : legalWords.card = 1062416 := by
  rw [legalWords, Finset.card_map, Finset.card_sigma, Finset.sum_congr rfl fun o _ => card_legalOperands o.toNat]
  rfl

section
variable {w : Word}

theorem reg_eq_zero_iff {b : BitVec 4} : reg b = 0 ↔ b = 0 := by
  rw [Fin.ext_iff, ← BitVec.toNat_inj]
  rfl

theorem toFin_eq_zero_iff {n : BitVec 12} : n.toFin = 0 ↔ n = 0 := BitVec.toFin_inj

theorem operands_mem_operandsR3_iff : operands w ∈ operandsR3 ↔ imm w = 0 := by
  simp only [operands, operandsR3, Finset.mem_product, Finset.mem_univ, Finset.mem_singleton, toFin_eq_zero_iff,
    true_and]

theorem operands_mem_operandsR2_iff : operands w ∈ operandsR2 ↔ rs2Bits w = 0 ∧ imm w = 0 := by
  simp only [operands, operandsR2, rs2, Finset.mem_product, Finset.mem_univ, Finset.mem_singleton, reg_eq_zero_iff,
    toFin_eq_zero_iff, true_and]

theorem operands_mem_operandsR2N_iff : operands w ∈ operandsR2N ↔ rs2Bits w = 0 ∧ imm w ≠ 0 := by
  simp only [operands, operandsR2N, rs2, Finset.mem_product, Finset.mem_univ, Finset.mem_singleton, Finset.mem_compl,
    reg_eq_zero_iff, toFin_eq_zero_iff, true_and, ne_eq]

theorem operands_mem_operandsR1_iff : operands w ∈ operandsR1 ↔ rs1Bits w = 0 ∧ rs2Bits w = 0 ∧ imm w = 0 := by
  simp only [operands, operandsR1, rs1, rs2, Finset.mem_product, Finset.mem_univ, Finset.mem_singleton,
    reg_eq_zero_iff, toFin_eq_zero_iff, true_and]

theorem mem_legalWords_iff : w ∈ legalWords ↔ op w ∈ legalOps ∧ operands w ∈ legalOperands (op w).toNat := by
  rw [legalWords, Finset.mem_map_equiv, Equiv.symm_symm, Finset.mem_sigma]
  rfl

/-- Row by row, decoding answers a command exactly for the operands of the row's format. -/
theorem mem_legalWords_iff_exists_decode : w ∈ legalWords ↔ ∃ i, decode w = .legal i := by
  rw [mem_legalWords_iff]
  unfold decode
  split
  case h_1 hop | h_2 hop | h_6 hop =>
    simp [op_eq_ofNat hop, legalOps, legalOperands, operands_mem_operandsR3_iff, decodeR3_eq_legal_iff]
  case h_3 hop | h_4 hop | h_5 hop | h_7 hop | h_9 hop | h_11 hop | h_12 hop =>
    simp [op_eq_ofNat hop, legalOps, legalOperands, operands_mem_operandsR2_iff, decodeR2_eq_legal_iff]
  case h_8 hop =>
    simp [op_eq_ofNat hop, legalOps, legalOperands, operands_mem_operandsR2N_iff, decodeR2N_eq_legal_iff]
  case h_10 hop =>
    simp [op_eq_ofNat hop, legalOps, legalOperands, operands_mem_operandsR1_iff, decodeR1_eq_legal_iff]
  case h_13 => simp [legalOperands, *]

end

/-- Settles O8: the legal words are those of `legalWords`, counted op by op. -/
theorem legalWordCount : Obligations.LegalWordCount :=
  ⟨legalWords.toList, legalWords.nodup_toList, fun _ => Finset.mem_toList.trans mem_legalWords_iff_exists_decode,
    legalWords.length_toList.trans card_legalWords⟩

end Sys2Proof.Machine
end

section
/-! PROOFS. The reduction (spec/40_reduction.md R81 to R91): the matrix and `combine` as sums over its rows, the
corrections and reductions as vectors, and what REDUCE, RED32 and CANON leave. -/

namespace Sys2Proof.Machine

/-! ## The matrix (R81) -/

/-- R81's procedure, run from each of the eight high positions, gives the printed rows. -/
theorem foldUnit_eq_coefficientRow : ∀ k : Fin 8, foldUnit (8 + k.val) = (coefficientRow k).toList := by decide

/-- Each printed row's value differs from the weight of its word by a multiple of p. -/
theorem coefficientRow_value_congr : ∀ k : Fin 8,
    ((2 : Int) ^ 256 * 2 ^ (32 * k.val) - ∑ j : Fin 8, (coefficientRow k)[j] * 2 ^ (32 * j.val))
      % (Config.prime : Int) = 0 := by decide

/-- The column sums read the matrix by columns. -/
theorem columnSums_getElem (xx : WideVec) (j : Fin 8) :
    (columnSums xx)[j] = ∑ k : Fin 8, ((xx[8 + k.val]).toNat : Int) * (coefficientRow k)[j] := by
  rw [Fin.sum_univ_eight]
  fin_cases j <;> simp [columnSums, coefficientRow] <;> ring

/-- Settles O26: the procedure and the congruence are computed row by row, the columns read off the sums. -/
theorem reductionMatrix : Obligations.ReductionMatrix :=
  ⟨foldUnit_eq_coefficientRow, coefficientRow_value_congr, columnSums_getElem⟩

/-! ## `combine` as a sum over the rows (R82, R83) -/

/-- Eight columns' value as a sum over the columns. -/
theorem colValue_eq_sum (t : Vector Int 8) : colValue t.toList = ∑ j : Fin 8, t[j] * 2 ^ (32 * j.val) := by
  obtain ⟨⟨l⟩, h⟩ := t
  match l, h with
  | [t0, t1, t2, t3, t4, t5, t6, t7], _ =>
    simp only [Vector.toList_mk, colValue, mul_zero, add_zero, Fin.getElem_fin, Vector.getElem_mk, List.getElem_toArray,
      Fin.sum_univ_eight, Fin.coe_ofNat_eq_mod, Nat.zero_mod, Nat.one_mod, Nat.reduceMod, List.getElem_cons_zero,
      List.getElem_cons_succ]
    ring

/-- The column sums' value, by rows instead of by columns. -/
theorem colValue_columnSums_eq_sum_rows (xx : WideVec) :
    colValue (columnSums xx).toList =
      ∑ k : Fin 8, ((xx[8 + k.val]).toNat : Int) * ∑ j : Fin 8, (coefficientRow k)[j] * 2 ^ (32 * j.val) := by
  simp only [colValue_eq_sum, columnSums_getElem, Finset.sum_mul, Finset.mul_sum, mul_assoc]
  exact Finset.sum_comm

/-- A double-width value from its low words and its high words at their weights. -/
theorem val_wide_eq_sum (xx : WideVec) :
    (val xx : Int) =
      val (lowWords xx) + ∑ k : Fin 8, ((xx[8 + k.val]).toNat : Int) * (2 ^ 256 * 2 ^ (32 * k.val)) := by
  rw [val_wide, Fin.sum_univ_eight]
  push_cast
  simp only [Fin.coe_ofNat_eq_mod, Nat.zero_mod, Nat.one_mod, Nat.reduceMod]
  ring

/-- R82: the exact equation of `combine`. -/
theorem combine_value_eq_sum_rows (xx : WideVec) :
    (val (combine xx).1 : Int) + (combine xx).2 * 2 ^ 256 = (val (lowWords xx) : Int) +
      ∑ k : Fin 8, ((xx[8 + k.val]).toNat : Int) * ∑ j : Fin 8, (coefficientRow k)[j] * 2 ^ (32 * j.val) := by
  rw [← colValue_columnSums_eq_sum_rows, ← combine_value]
  ring

/-- R82: `combine` keeps the value modulo p, because each row is congruent to its word's weight. -/
theorem combine_modEq (xx : WideVec) :
    (val (combine xx).1 : Int) + (combine xx).2 * 2 ^ 256 ≡ val xx [ZMOD Config.prime] := by
  rw [combine_value_eq_sum_rows, val_wide_eq_sum]
  have hrow (k : Fin 8) : ∑ j : Fin 8, (coefficientRow k)[j] * 2 ^ (32 * j.val)
      ≡ 2 ^ 256 * 2 ^ (32 * k.val) [ZMOD Config.prime] :=
    Int.modEq_iff_dvd.mpr (Int.dvd_of_emod_eq_zero (coefficientRow_value_congr k))
  exact (Int.ModEq.sum fun k _ => (hrow k).mul_left _).add_left _

/-- Settles O27: the column sums are regrouped by rows, and each row stands for its word's weight modulo p. -/
theorem combineValue : Obligations.CombineValue :=
  fun xx => ⟨combine_value_eq_sum_rows xx, combine_modEq xx⟩

/-- Settles O28, from the words' bounds. -/
theorem combineCarryBounds : Obligations.CombineCarryBounds := combine_carry_bounds

/-! ## The corrections and the reductions as vectors (R84 to R88) -/

/-- A field vector with the value v is `words_8(v)`. -/
theorem eq_words8 {z : FieldVec} {v : Nat} (h : val z = v) : z = words 8 v := by
  rw [← h, words_val]

/-- Settles O29: the three clauses are cases of (val(z) + PInv) mod 2^256. -/
theorem addPInvToValue : Obligations.AddPInvToValue := by
  intro z
  have hval := val_addPInvTo z
  have hz := val_lt8 z
  have hp := prime_add_primeInv
  have h2p := two_pow_lt_two_prime
  refine ⟨eq_words8 hval, fun h => ?_, fun h => ⟨?_, ?_⟩⟩ <;> omega

/-- Settles O30: the two clauses are cases of (val(z) - PInv) mod 2^256. -/
theorem subPInvFromValue : Obligations.SubPInvFromValue := by
  intro z
  have hval := val_subPInvFrom z
  have hz := val_lt8 z
  have hp := primeInv_eq
  refine ⟨eq_words8 (by omega), fun h => ⟨?_, ?_⟩⟩ <;> omega

/-- Settles O31: a vector is the words of its value. -/
theorem correctUpValue : Obligations.CorrectUpValue :=
  fun _ _ hc h => eq_words8 (val_correctUp hc h)

/-- R87: with no carry the fold is the correction alone, both being the residue of z. -/
theorem reduce32_zero (z : FieldVec) : reduce32 0 z = correctUp z 0 := by
  apply val_inj
  have h := val_reduce32 (c := 0) (by decide) (by decide) z
  rw [zero_mul, add_zero] at h
  rw [← canonise_eq_correctUp, val_canonise]
  exact_mod_cast h

/-- Settles O32: the fold's value is the residue, and with no carry it is the correction's. -/
theorem reduce32Value : Obligations.Reduce32Value := by
  intro z c hlo hhi
  have hval := val_reduce32 hlo hhi z
  exact ⟨eq_words8 (by rw [← hval, Int.toNat_natCast]), val_reduce32_lt hlo hhi z, reduce32_zero z⟩

/-- R88: the canonical residue of every double-width value. -/
theorem val_reduce (xx : WideVec) : val (reduce xx) = val xx % Config.prime := by
  obtain ⟨hlo, hhi⟩ := combine_carry_bounds xx
  have hfold := val_reduce32 (c := (combine xx).2) (by omega) (by omega) (combine xx).1
  rw [combine_modEq xx, ← reduce] at hfold
  exact_mod_cast hfold

/-- Settles O33: `combine` keeps the residue and its carry is in the fold's range. -/
theorem reduceValue : Obligations.ReduceValue :=
  fun xx => ⟨eq_words8 (val_reduce xx), val_reduce_lt xx⟩

/-! ## REDUCE, RED32, CANON (R89 to R91) -/

/-- A command one of whose sources is not usable leaves a free value. -/
theorem leaves_unspec_of_resultOf {i : Instr} {s : State} (hw : i.wellFormed = true) (h : resultOf i s = none) :
    Leaves i s (val (Config.unspec256 s.draws)) := by
  refine ⟨_, exec_eq_complete s hw, ?_, State.regDefined_complete_self _ _ _, keepsAllBut_complete _ _ _⟩
  rw [State.reg_complete_self, h]
  rfl

section
variable {s : State} (rd : RegNum)

theorem resultOf_reduce_of_lt (hx : s.xxDefined = true) (h : val s.xx < Config.prime ^ 2) :
    resultOf (.reduce rd) s = some (reduce s.xx) :=
  unaryResult_eq_some.mpr ⟨s.xx, (State.wideOperand_eq_some _ _).mpr ⟨hx, by rwa [← sq], rfl⟩, rfl⟩

theorem resultOf_reduce_of_le (h : Config.prime ^ 2 ≤ val s.xx) : resultOf (.reduce rd) s = none := by
  rw [sq] at h
  simp [resultOf, unaryResult, State.wideOperand, h]

variable {rs1 : RegNum} (hd : s.regDefined rs1 = true)
include hd

theorem resultOf_red32 : resultOf (.red32 rd rs1) s = some (reduce32 s.carryOperand (s.reg rs1)) :=
  unaryResult_eq_some.mpr ⟨_, (State.anyOperand_eq_some _ _ _).mpr ⟨hd, rfl⟩, rfl⟩

theorem resultOf_canon : resultOf (.canon rd rs1) s = some (canonise (s.reg rs1)) :=
  unaryResult_eq_some.mpr ⟨_, (State.anyOperand_eq_some _ _ _).mpr ⟨hd, rfl⟩, rfl⟩

end

/-- Settles O45: XX is usable exactly below p^2, and `reduce` leaves its residue. -/
theorem reduceResult : Obligations.ReduceResult := by
  intro s rd hx
  refine ⟨fun h => ?_, fun h => leaves_unspec_of_resultOf rfl (resultOf_reduce_of_le rd h)⟩
  rw [← val_reduce]
  exact leaves_of_resultOf rfl (resultOf_reduce_of_lt rd hx h)

/-- R90: the fold of RED32's carry operand, which CARRY's 32 bits keep in R87's range. -/
theorem val_reduce32_carryOperand (s : State) (z : FieldVec) :
    (val (reduce32 s.carryOperand z) : Int) = ((val z : Int) + s.carry.toInt * 2 ^ 256) % Config.prime :=
  val_reduce32 (BitVec.le_toInt s.carry) (Int.le_sub_one_of_lt BitVec.toInt_lt) z

/-- Settles O46: every defined source is usable, and the fold takes every CARRY. -/
theorem red32Result : Obligations.Red32Result := by
  intro s rd rs1 hd
  rw [← val_reduce32_carryOperand, Int.toNat_natCast]
  exact leaves_of_resultOf rfl (resultOf_red32 rd hd)

/-- The residue of a 256-bit value takes p off once at most, since 2^256 < 2p (R91). -/
theorem val_mod_prime (z : FieldVec) :
    val z % Config.prime = if Config.prime ≤ val z then val z - Config.prime else val z := by
  have hz := val_lt8 z
  have h2p := two_pow_lt_two_prime
  split
  next h => rw [Nat.mod_eq_sub_mod h, Nat.mod_eq_of_lt (by omega)]
  next h => exact Nat.mod_eq_of_lt (by omega)

/-- Settles O47: RED32 at carry 0 and CANON both leave `correctUp z 0`. -/
theorem canonResult : Obligations.CanonResult := by
  intro s rd rs1 hd
  have hleaves : Leaves (.canon rd rs1) s (val (s.reg rs1) % Config.prime) := by
    rw [← val_canonise]
    exact leaves_of_resultOf rfl (resultOf_canon rd hd)
  refine ⟨hleaves, val_mod_prime (s.reg rs1) ▸ hleaves, _, _, exec_eq_complete _ rfl, exec_eq_complete _ rfl, ?_⟩
  have hred32 : resultOf (.red32 rd rs1) { s with carry := 0#32 } = some (reduce32 0 (s.reg rs1)) :=
    resultOf_red32 rd hd
  rw [resultOf_canon rd hd, hred32, reduce32_zero, ← canonise_eq_correctUp]
  exact (State.reg_complete_self _ _ _).trans (State.reg_complete_self _ _ _).symm

end Sys2Proof.Machine
end

section
/-! PROOFS. The additive commands (spec/41_additive.md R100 to R107): what a command does where a source is not usable,
the value each of the six leaves, and their laws, read off the residues modulo p. -/

namespace Sys2Proof.Machine

/-! ## Usable and unusable sources (R100) -/

theorem State.isSome_fieldOperand_iff {s : State} {i : RegNum} :
    (s.fieldOperand i).isSome = true ↔ s.CanonicalSource i := by
  rw [Option.isSome_iff_ne_none, Ne, State.fieldOperand_eq_none, not_not]

/-- A command with canonical sources is ready exactly when each of them is one; REDUCE, RED32 and CANON have none. -/
theorem ready_iff_canonicalSources {i : Instr} {s : State} (h : canonicalSources i ≠ []) :
    ready i s = true ↔ ∀ r ∈ canonicalSources i, s.CanonicalSource r := by
  cases i with
  | add | sub | mul =>
    rw [canonicalSources, List.forall_mem_cons, List.forall_mem_singleton]
    simp only [ready, Bool.and_eq_true, State.isSome_fieldOperand_iff]
  | neg | twice | half | sqr | sqrn | addone =>
    simp only [ready, canonicalSources, State.isSome_fieldOperand_iff, List.forall_mem_singleton]
  | reduce | red32 | canon => exact absurd rfl h

theorem canonicalSources_ne_nil_of_isAdditive {i : Instr} (h : isAdditive i = true) : canonicalSources i ≠ [] := by
  cases i with
  | add | sub | neg | twice | half | addone => exact List.cons_ne_nil _ _
  | mul | sqr | sqrn | reduce | red32 | canon => cases h

theorem wellFormed_of_isAdditive {i : Instr} (h : isAdditive i = true) : i.wellFormed = true := by
  cases i with
  | sqrn => cases h
  | _ => rfl

theorem resultOf_eq_none_iff {i : Instr} {s : State} : resultOf i s = none ↔ ready i s = false := by
  rw [← isSome_resultOf, Option.isSome_eq_false_iff, Option.isNone_iff_eq_none]

/-- A command that is not ready leaves the free value. -/
theorem reg_destination_complete_of_not_ready {i : Instr} {s : State} (h : ready i s = false) :
    (s.complete (destination i) (resultOf i s)).reg (destination i) = Config.unspec256 s.draws := by
  rw [State.reg_complete_self, resultOf_eq_none_iff.mpr h]
  rfl

/-- Settles O48: a command that is not ready has no result, so `complete` takes the next free value. -/
theorem unusableSourceCompletes : Obligations.UnusableSourceCompletes := by
  intro i s hw hr
  refine ⟨_, exec_eq_complete s hw, reg_destination_complete_of_not_ready hr, State.regDefined_complete_self _ _ _, ?_⟩
  rw [State.complete_draws, resultOf_eq_none_iff.mpr hr]
  rfl

/-- Settles O35: the six commands are completions; canonical sources make them ready, and one that is not canonical
makes them not ready. -/
theorem additiveCommonRules : Obligations.AdditiveCommonRules := by
  intro i s hi
  have hw := wellFormed_of_isAdditive hi
  have hready := ready_iff_canonicalSources (s := s) (canonicalSources_ne_nil_of_isAdditive hi)
  have hexec := exec_eq_complete s hw
  refine ⟨_, hexec, keepsAllBut_complete _ _ _, State.regDefined_complete_self _ _ _, fun hsrc => ?_,
    fun _ ⟨r, hr, hge⟩ => ?_⟩
  · exact val_resultOf_lt (reg_destination_of_exec hw (hready.mpr hsrc) hexec)
  · have hnot : ¬ ready i s = true := fun h => Nat.not_lt.mpr hge (hready.mp h r hr).2
    exact reg_destination_complete_of_not_ready (Bool.not_eq_true _ ▸ hnot)

/-! ## The commands' values (R101 to R106) -/

section
variable {s : State} {rs1 rs2 : RegNum} (h1 : s.CanonicalSource rs1)
include h1

theorem unaryResult_of_canonicalSource (g : FieldVec → FieldVec) :
    unaryResult g (s.fieldOperand rs1) = some (g (s.reg rs1)) := by
  rw [State.fieldOperand_of_isSome (State.isSome_fieldOperand_iff.mpr h1)]
  rfl

theorem binaryResult_of_canonicalSource (h2 : s.CanonicalSource rs2) (g : FieldVec → FieldVec → FieldVec) :
    binaryResult g (s.fieldOperand rs1) (s.fieldOperand rs2) = some (g (s.reg rs1) (s.reg rs2)) := by
  rw [State.fieldOperand_of_isSome (State.isSome_fieldOperand_iff.mpr h1),
    State.fieldOperand_of_isSome (State.isSome_fieldOperand_iff.mpr h2)]
  rfl

end

/-- Settles O36: canonical sources are usable, so the result is `modAdd`'s, of the value `val_modAdd`. -/
theorem addResult : Obligations.AddResult := by
  intro s rd rs1 rs2 h1 h2
  rw [← val_modAdd h1.2 h2.2]
  exact leaves_of_resultOf rfl (binaryResult_of_canonicalSource h1 h2 modAdd)

/-- Settles O37: canonical sources are usable, so the result is `modSub`'s, of the value `val_modSub`. -/
theorem subResult : Obligations.SubResult := by
  intro s rd rs1 rs2 h1 h2
  rw [← val_modSub h1.2 h2.2, Int.toNat_natCast]
  exact leaves_of_resultOf rfl (binaryResult_of_canonicalSource h1 h2 modSub)

/-- Settles O38: a canonical source is usable, so the result is `modNeg`'s, of the value `val_modNeg`. -/
theorem negResult : Obligations.NegResult := by
  intro s rd rs1 h1
  rw [← val_modNeg h1.2]
  exact leaves_of_resultOf rfl (unaryResult_of_canonicalSource h1 modNeg)

/-- Settles O39: a canonical source is usable, so the result is `modTwice`'s, of the value `val_modTwice`. -/
theorem twiceResult : Obligations.TwiceResult := by
  intro s rd rs1 h1
  rw [← val_modTwice h1.2]
  exact leaves_of_resultOf rfl (unaryResult_of_canonicalSource h1 modTwice)

/-- R105: since p is odd, doubling modulo p has exactly one inverse image below p, and `modHalf` returns it. -/
theorem two_mul_mod_prime_eq_iff {a : FieldVec} (ha : val a < Config.prime) {r : Nat} (hr : r < Config.prime) :
    2 * r % Config.prime = val a ↔ r = val (modHalf a) := by
  have hodd := prime_mod_two
  have hdouble : 2 * r % Config.prime = if 2 * r < Config.prime then 2 * r else 2 * r - Config.prime := by
    split
    next h => exact Nat.mod_eq_of_lt h
    next h => rw [Nat.mod_eq_sub_mod (by omega), Nat.mod_eq_of_lt (by omega)]
  rw [hdouble, val_modHalf]
  split <;> split <;> omega

/-- Settles O40: the value is `modHalf`'s, and the only one by `two_mul_mod_prime_eq_iff`. -/
theorem halfResult : Obligations.HalfResult := by
  intro s rd rs1 h1
  rw [← val_modHalf]
  exact ⟨leaves_of_resultOf rfl (unaryResult_of_canonicalSource h1 modHalf), fun _ => two_mul_mod_prime_eq_iff h1.2⟩

/-- Settles O41: a canonical source is usable, so the result is `modAddOne`'s, of the value `val_modAddOne`. -/
theorem addoneResult : Obligations.AddoneResult := by
  intro s rd rs1 h1
  rw [← val_modAddOne h1.2]
  exact leaves_of_resultOf rfl (unaryResult_of_canonicalSource h1 modAddOne)

/-! ## The laws (R107) -/

/-- The residue a vector stands for. On canonical vectors it is one to one, so a law of the commands' functions is an
identity of the ring of residues. -/
def residue (z : FieldVec) : ZMod Config.prime := (val z : ZMod Config.prime)

theorem residue_inj {x y : FieldVec} (hx : val x < Config.prime) (hy : val y < Config.prime)
    (h : residue x = residue y) : x = y := by
  have hmod := (ZMod.natCast_eq_natCast_iff' _ _ _).mp h
  rw [Nat.mod_eq_of_lt hx, Nat.mod_eq_of_lt hy] at hmod
  exact val_inj hmod

theorem residue_words8 {v : Nat} (h : v < 2 ^ 256) : residue (words 8 v) = v := by
  rw [residue, val_words8_of_lt h]

section
variable {a b : FieldVec} (ha : val a < Config.prime)
include ha

theorem residue_modAdd (hb : val b < Config.prime) : residue (modAdd a b) = residue a + residue b := by
  rw [residue, val_modAdd ha hb, ZMod.natCast_mod, Nat.cast_add]
  rfl

theorem residue_modSub (hb : val b < Config.prime) : residue (modSub a b) = residue a - residue b := by
  have hval := congrArg (Int.cast : Int → ZMod Config.prime) (val_modSub ha hb)
  rw [ZMod.intCast_mod, Int.cast_sub] at hval
  simpa only [residue, Int.cast_natCast] using hval

theorem residue_modNeg : residue (modNeg a) = -residue a := by
  rw [residue, residue, val_modNeg ha]
  split
  next h => rw [h, Nat.cast_zero, neg_zero]
  next => rw [Nat.cast_sub ha.le, ZMod.natCast_self, zero_sub]

theorem residue_modTwice : residue (modTwice a) = 2 * residue a := by
  rw [residue, val_modTwice ha, ZMod.natCast_mod, Nat.cast_mul, Nat.cast_two]
  rfl

theorem residue_modAddOne : residue (modAddOne a) = residue a + 1 := by
  rw [residue, val_modAddOne ha, ZMod.natCast_mod, Nat.cast_add, Nat.cast_one]
  rfl

theorem val_modTwice_lt : val (modTwice a) < Config.prime := val_modTwice ha ▸ Nat.mod_lt _ prime_pos

theorem val_modAddOne_lt : val (modAddOne a) < Config.prime := val_modAddOne ha ▸ Nat.mod_lt _ prime_pos

theorem val_modAdd_lt (hb : val b < Config.prime) : val (modAdd a b) < Config.prime :=
  val_modAdd ha hb ▸ Nat.mod_lt _ prime_pos

/-- R107: HALF's result is a preimage of its source under TWICE. -/
theorem modTwice_modHalf : modTwice (modHalf a) = a := by
  have hhalf := val_modHalf_lt ha
  apply val_inj
  rw [val_modTwice hhalf]
  exact (two_mul_mod_prime_eq_iff ha hhalf).mpr rfl

/-- R107: the only preimage of 2a mod p under TWICE is a. -/
theorem modHalf_modTwice : modHalf (modTwice a) = a :=
  val_inj ((two_mul_mod_prime_eq_iff (val_modTwice_lt ha) ha).mp (val_modTwice ha).symm).symm

end

/-- Settles O50: all results are canonical, so each law is the identity of its two sides' residues. -/
theorem additiveLaws : Obligations.AdditiveLaws := by
  intro a b ha hb
  have hnega := val_modNeg_lt ha
  have hnegb := val_modNeg_lt hb
  have hzero : val (words 8 0) < Config.prime := by decide
  have hone : val (words 8 1) < Config.prime := by decide
  refine ⟨⟨val_modAdd_lt ha hb, val_modSub_lt ha hb, hnega, val_modTwice_lt ha, val_modHalf_lt ha, val_modAddOne_lt ha⟩,
    ?addNeg, ?addZero, ?twice, modTwice_modHalf ha, ?sub, modHalf_modTwice ha, ?addOne, ?negNeg⟩
  case addNeg =>
    refine residue_inj (val_modAdd_lt ha hnega) hzero ?_
    rw [residue_modAdd ha hnega, residue_modNeg ha, residue_words8 (by decide), add_neg_cancel, Nat.cast_zero]
  case addZero =>
    refine residue_inj (val_modAdd_lt ha hzero) ha ?_
    rw [residue_modAdd ha hzero, residue_words8 (by decide), Nat.cast_zero, add_zero]
  case twice =>
    refine residue_inj (val_modTwice_lt ha) (val_modAdd_lt ha ha) ?_
    rw [residue_modTwice ha, residue_modAdd ha ha, two_mul]
  case sub =>
    refine residue_inj (val_modSub_lt ha hb) (val_modAdd_lt ha hnegb) ?_
    rw [residue_modSub ha hb, residue_modAdd ha hnegb, residue_modNeg hb, sub_eq_add_neg]
  case addOne =>
    refine residue_inj (val_modAddOne_lt ha) (val_modAdd_lt ha hone) ?_
    rw [residue_modAddOne ha, residue_modAdd ha hone, residue_words8 (by decide), Nat.cast_one]
  case negNeg =>
    refine residue_inj (val_modNeg_lt hnega) ha ?_
    rw [residue_modNeg hnega, residue_modNeg ha, neg_neg]

end Sys2Proof.Machine
end

section
/-! PROOFS. The multiplicative commands (spec/42_multiplicative.md R120 to R124): the values of the word-level product,
square and repeated square, what MUL, SQR and SQRN leave, and their laws, read off the residues modulo p. -/

namespace Sys2Proof.Machine

/-! ## The product of canonical values (R123) -/

/-- R123: (p-1)^2 as sixteen words. -/
theorem words_sq_pred_prime : words 16 ((Config.prime - 1) ^ 2) =
    #v[0x00000004#32, 0x00000000#32, 0x00000000#32, 0xFFFFFFFC#32, 0xFFFFFFFF#32, 0xFFFFFFFF#32, 0xFFFFFFFC#32,
       0x00000003#32, 0xFFFFFFFC#32, 0x00000001#32, 0xFFFFFFFE#32, 0x00000001#32, 0x00000001#32, 0xFFFFFFFE#32,
       0x00000002#32, 0xFFFFFFFE#32] := by decide

/-- Settles O34: each factor is at most p - 1, and p is below 2^256. -/
theorem productBound : Obligations.ProductBound := by
  refine ⟨fun a b ha hb => ⟨?_, mul8x8to16_value a b⟩, ?_, ?_, words_sq_pred_prime⟩
  · exact sq (Config.prime - 1) ▸ Nat.mul_le_mul (Nat.le_sub_one_of_lt ha) (Nat.le_sub_one_of_lt hb)
  · exact Nat.pow_lt_pow_left (Nat.sub_lt prime_pos one_pos) two_ne_zero
  · exact sq Config.prime ▸ Nat.mul_lt_mul'' prime_lt prime_lt

/-! ## The functions' values (R120 to R122) -/

theorem val_modMul (a b : FieldVec) : val (modMul a b) = val a * val b % Config.prime := by
  rw [modMul, val_reduce, mul8x8to16_value]

theorem val_modMul_lt (a b : FieldVec) : val (modMul a b) < Config.prime := val_reduce_lt _

theorem modMul_self (a : FieldVec) : modMul a a = modSqr a := rfl

theorem val_modSqr (a : FieldVec) : val (modSqr a) = val a ^ 2 % Config.prime := by
  rw [← modMul_self, val_modMul, sq]

theorem val_modSqr_lt (a : FieldVec) : val (modSqr a) < Config.prime := val_reduce_lt _

theorem squareTimes_succ_eq_modSqr (n : Nat) (z : FieldVec) : squareTimes (n + 1) z = squareTimes n (modSqr z) :=
  squareTimes_succ n z

theorem squareTimes_one (z : FieldVec) : squareTimes 1 z = modSqr z := squareTimes_succ_eq_modSqr 0 z

theorem squareTimes_add (m k : Nat) (z : FieldVec) : squareTimes (m + k) z = squareTimes k (squareTimes m z) := by
  induction m generalizing z with
  | zero => rw [Nat.zero_add, squareTimes]
  | succ m ih => rw [Nat.succ_add, squareTimes_succ_eq_modSqr, squareTimes_succ_eq_modSqr, ih]

/-- R122: squaring doubles the exponent, so n squarings of a canonical vector raise it to 2^n. -/
theorem val_squareTimes (n : Nat) {z : FieldVec} (hz : val z < Config.prime) :
    val (squareTimes n z) = val z ^ 2 ^ n % Config.prime := by
  induction n generalizing z with
  | zero => rw [squareTimes, pow_zero, pow_one, Nat.mod_eq_of_lt hz]
  | succ n ih =>
    calc val (squareTimes (n + 1) z)
        = val (modSqr z) ^ 2 ^ n % Config.prime := by rw [squareTimes_succ_eq_modSqr, ih (val_modSqr_lt z)]
      _ = (val z ^ 2) ^ 2 ^ n % Config.prime := by rw [val_modSqr, ← Nat.pow_mod]
      _ = val z ^ 2 ^ (n + 1) % Config.prime := by rw [← pow_mul, ← pow_succ']

/-! ## What MUL, SQR and SQRN leave (R120 to R122) -/

/-- R100 (2), R120: a command that takes a source which is not canonical leaves a free value. -/
theorem leaves_unspec_of_source_not_canonical {i : Instr} {s : State} {r : RegNum} (hw : i.wellFormed = true)
    (hr : r ∈ canonicalSources i) (hge : Config.prime ≤ val (s.reg r)) :
    Leaves i s (val (Config.unspec256 s.draws)) := by
  have hnot : ¬ ready i s = true := fun h =>
    Nat.not_lt.mpr hge ((ready_iff_canonicalSources (List.ne_nil_of_mem hr)).mp h r hr).2
  exact leaves_unspec_of_resultOf hw (resultOf_eq_none_iff.mpr (Bool.not_eq_true _ ▸ hnot))

/-- Settles O42: canonical sources are usable and `modMul` has the value `val_modMul`; one that is not canonical is not
usable. -/
theorem mulResult : Obligations.MulResult := by
  intro s rd rs1 rs2 hd1 hd2
  refine ⟨fun ⟨h1, h2⟩ => ?_, ?_⟩
  · rw [← val_modMul]
    exact leaves_of_resultOf rfl (binaryResult_of_canonicalSource ⟨hd1, h1⟩ ⟨hd2, h2⟩ modMul)
  · rintro (hge | hge)
    · exact leaves_unspec_of_source_not_canonical rfl List.mem_cons_self hge
    · exact leaves_unspec_of_source_not_canonical rfl (List.mem_cons_of_mem rs1 List.mem_cons_self) hge

/-- Settles O43: as MUL, for the one source and `modSqr`. -/
theorem sqrResult : Obligations.SqrResult := by
  intro s rd rs1 hd
  refine ⟨fun h => ?_, leaves_unspec_of_source_not_canonical rfl List.mem_cons_self⟩
  rw [← val_modSqr]
  exact leaves_of_resultOf rfl (unaryResult_of_canonicalSource ⟨hd, h⟩ modSqr)

theorem wellFormed_sqrn {n : BitVec 12} (rd rs1 : RegNum) (hn : n ≠ 0) : (Instr.sqrn rd rs1 n).wellFormed = true :=
  bne_iff_ne.mpr hn

/-- R66 (c): a word with SQRN's op and count 0 is illegal, whatever its other fields hold. -/
theorem exists_decode_eq_illegal_of_zero_count {w : Word} (hop : (Field.op w).toNat = 0x08) (himm : Field.imm w = 0) :
    ∃ why, decode w = .illegal why := by
  cases hd : decode w with
  | illegal why => exact ⟨why, rfl⟩
  | legal i =>
    have hrow : decodeR2N .sqrn w = .legal i := by simpa only [decode, hop] using hd
    obtain ⟨⟨-, hcount⟩, -⟩ := decodeR2N_eq_legal_iff.mp hrow
    exact absurd himm hcount

/-- Settles O44: as SQR, for n squarings; a word with count 0 decodes to no command, so its issue is the exception. -/
theorem sqrnResult : Obligations.SqrnResult := by
  refine ⟨fun s rd rs1 n hn hd => ⟨fun h => ?_, ?_⟩, fun s w l hp hop himm => ?_⟩
  · rw [← val_squareTimes _ h]
    exact leaves_of_resultOf (wellFormed_sqrn rd rs1 hn)
      (unaryResult_of_canonicalSource ⟨hd, h⟩ (squareTimes n.toNat))
  · exact leaves_unspec_of_source_not_canonical (wellFormed_sqrn rd rs1 hn) List.mem_cons_self
  · rw [← Field.op_toNat] at hop
    rw [← Field.imm_toNat] at himm
    obtain ⟨why, hd⟩ := exists_decode_eq_illegal_of_zero_count hop ((bits_eq_zero_iff _).mpr himm)
    rw [step_write_cmd hp, issue_illegal _ hd, State.dropEvent_of_pending hp]

/-! ## SQRN in sequence (R122) -/

/-- A completed command's canonical result is a canonical source of the next one. -/
theorem State.canonicalSource_complete_self (s : State) (rd : RegNum) {z : FieldVec} (hz : val z < Config.prime) :
    (s.complete rd (some z)).CanonicalSource rd := by
  refine ⟨State.regDefined_complete_self _ _ _, ?_⟩
  rwa [State.reg_complete_self]

theorem exec_sqrn_of_canonicalSource {s : State} {rs1 : RegNum} (h : s.CanonicalSource rs1) (rd : RegNum) {n : Nat}
    (hpos : 1 ≤ n) (hmax : n ≤ 4095) :
    exec (.sqrn rd rs1 (BitVec.ofNat 12 n)) s = .next (s.complete rd (some (squareTimes n (s.reg rs1)))) := by
  have hn : (BitVec.ofNat 12 n).toNat = n := by
    rw [BitVec.toNat_ofNat, Nat.mod_eq_of_lt (by omega)]
  have hne : BitVec.ofNat 12 n ≠ 0 := fun h0 => by
    rw [(bits_eq_zero_iff _).mp h0] at hn
    omega
  have hresult : resultOf (.sqrn rd rs1 (BitVec.ofNat 12 n)) s = some (squareTimes n (s.reg rs1)) := by
    rw [resultOf, hn, unaryResult_of_canonicalSource h]
  rw [exec_eq_complete s (wellFormed_sqrn rd rs1 hne), hresult, destination]

theorem exec_sqr_of_canonicalSource {s : State} {rs1 : RegNum} (h : s.CanonicalSource rs1) (rd : RegNum) :
    exec (.sqr rd rs1) s = .next (s.complete rd (some (modSqr (s.reg rs1)))) := by
  rw [exec_eq_complete s rfl, resultOf, unaryResult_of_canonicalSource h, destination]

/-- Settles O52: the first command's result is a canonical source of the second, and repeated squarings add. -/
theorem sqrnComposes : Obligations.SqrnComposes := by
  intro s rd rs1 m k h hm hk hmk
  have hmid := s.canonicalSource_complete_self rd (val_squareTimes_lt m h.2)
  refine ⟨_, _, _, _, _, exec_sqrn_of_canonicalSource h rd hm (by omega),
    exec_sqrn_of_canonicalSource hmid rd hk (by omega), exec_sqrn_of_canonicalSource h rd (by omega) hmk, ?_,
    exec_sqrn_of_canonicalSource h rd (n := 1) (by decide) (by decide), exec_sqr_of_canonicalSource h rd, ?_⟩
  · simp only [State.reg_complete_self, Option.getD_some, squareTimes_add]
  · rw [squareTimes_one]

/-! ## The laws (R124) -/

theorem residue_modMul (a b : FieldVec) : residue (modMul a b) = residue a * residue b := by
  rw [residue, val_modMul, ZMod.natCast_mod, Nat.cast_mul]
  rfl

/-- A canonical vector is a product when its residue is the product of the factors' residues. -/
theorem modMul_eq_of_residue {a b z : FieldVec} (hz : val z < Config.prime) (h : residue a * residue b = residue z) :
    modMul a b = z :=
  residue_inj (val_modMul_lt a b) hz ((residue_modMul a b).trans h)

/-- Settles O51: all results are canonical, so each law is an identity of the ring of residues. -/
theorem multiplicativeLaws : Obligations.MultiplicativeLaws := by
  intro a b c ha hb hc
  refine ⟨val_modMul_lt a b, modMul_self a, ?comm, ?assoc, ?distrib, ?mulOne, ?mulZero, ?twice⟩
  case comm =>
    refine modMul_eq_of_residue (val_modMul_lt b a) ?_
    rw [residue_modMul, mul_comm]
  case assoc =>
    refine modMul_eq_of_residue (val_modMul_lt a _) ?_
    rw [residue_modMul, residue_modMul, residue_modMul, mul_assoc]
  case distrib =>
    have hab := val_modMul_lt a b
    have hac := val_modMul_lt a c
    refine modMul_eq_of_residue (val_modAdd_lt hab hac) ?_
    rw [residue_modAdd hb hc, residue_modAdd hab hac, residue_modMul, residue_modMul, mul_add]
  case mulOne =>
    refine modMul_eq_of_residue ha ?_
    rw [residue_words8 (by decide), Nat.cast_one, mul_one]
  case mulZero =>
    refine modMul_eq_of_residue (by decide) ?_
    rw [residue_words8 (by decide), Nat.cast_zero, mul_zero]
  case twice =>
    refine (modMul_eq_of_residue (val_modTwice_lt ha) ?_).symm
    rw [residue_words8 (by decide), Nat.cast_two, residue_modTwice ha, mul_comm]

end Sys2Proof.Machine
end

section
/-! PROOFS. The exception and the free values (spec/60_exceptions.md R130 to R132; spec/70_reset_and_hazards.md R151):
what an illegal word does, that a step takes one event, that ILL stays set and changes no command, and that a step
inside the boot requirements draws no free value. -/

namespace Sys2Proof.Machine

/-! ## Legal and illegal words, commands and terms that are none -/

/-- A word that spells no command is illegal, by some cause. -/
theorem exists_decode_eq_illegal {w : Word} (h : ¬ ∃ i, decode w = .legal i) : ∃ why, decode w = .illegal why := by
  cases hd : decode w with
  | legal i => exact absurd ⟨i, hd⟩ h
  | illegal why => exact ⟨why, rfl⟩

/-- Settles O13: the step ends in IllegalCommand on the state without the write, which changes STATUS only. -/
theorem illegalCommandSetsOnlyIll : Obligations.IllegalCommandSetsOnlyIll := by
  intro s w l hp hno
  obtain ⟨why, hd⟩ := exists_decode_eq_illegal hno
  have hstep := (step_write_cmd hp).trans (issue_illegal _ hd)
  refine ⟨_, hstep, State.ill_raiseIllegal _, fun _ hj => setIll_of_ne_zero _ hj, rfl, rfl, rfl, rfl, rfl, ?pending⟩
  case pending => rw [State.raiseIllegal_pending, State.dropEvent_pending, hp, List.tail_cons]

/-- The one term that is no command, SQRN with a count of zero, raises IllegalCommand. -/
theorem exec_of_not_wellFormed {i : Instr} (s : State) (h : i.wellFormed = false) :
    exec i s = .next s.raiseIllegal := by
  cases i with
  | sqrn rd rs1 n =>
    obtain rfl : n = 0 := by simpa [Instr.wellFormed] using h
    exact exec_sqrn_zero rd rs1 s
  | _ => cases h

/-- Settles O18: a step is one effect, which takes the first event, and a term completes or raises IllegalCommand. -/
theorem stepTakesOneEvent : Obligations.StepTakesOneEvent := by
  refine ⟨fun s => ?_, fun i s => ?_⟩
  · obtain ⟨t, hstep, heff⟩ := step_effect s
    exact ⟨t, hstep, heff.pending_eq⟩
  · cases hw : i.wellFormed with
    | true => exact ⟨_, exec_eq_complete s hw, rfl⟩
    | false => exact ⟨_, exec_of_not_wellFormed s hw, rfl⟩

/-! ## ILL is sticky (R132) -/

/-- Every effect but the reset event's keeps STATUS or sets ILL. -/
theorem Effect.ill_of_ne_reset {s t : State} (h : Effect s t) (hreset : ∀ l, s.pending ≠ .reset :: l)
    (hs : s.ill = true) : t.ill = true := by
  cases h with
  | reset l hp _ => exact absurd hp (hreset l)
  | illegal _ _ _ _ _ e => exact e ▸ State.ill_raiseIllegal _
  | idle _ e | read _ _ _ e | field _ _ _ _ _ e | xx _ _ _ _ e | carry _ _ _ e | command _ _ _ _ _ e
  | ignored _ _ _ _ _ e =>
    subst e
    exact hs

/-- A field source depends on the registers and their defined words only. -/
theorem State.fieldOperand_congr {s t : State} (hf : t.f = s.f) (hfd : t.fDef = s.fDef) (i : RegNum) :
    t.fieldOperand i = s.fieldOperand i := by
  rw [State.fieldOperand, State.fieldOperand, State.regDefined, State.regDefined, State.reg_congr hf, hfd]

theorem State.anyOperand_congr {s t : State} (hf : t.f = s.f) (hfd : t.fDef = s.fDef) (i : RegNum) :
    t.anyOperand i = s.anyOperand i := by
  rw [State.anyOperand, State.anyOperand, State.regDefined, State.regDefined, State.reg_congr hf, hfd]

theorem State.wideOperand_congr {s t : State} (hx : t.xx = s.xx) (hxd : t.xxDef = s.xxDef) :
    t.wideOperand = s.wideOperand := by
  rw [State.wideOperand, State.wideOperand, State.xxDefined, State.xxDefined, hx, hxd]

/-- A result depends on the registers, CARRY and the defined words only: not on STATUS, the host's side or the count of
free values. -/
theorem resultOf_congr (i : Instr) {s t : State} (hf : t.f = s.f) (hfd : t.fDef = s.fDef) (hx : t.xx = s.xx)
    (hxd : t.xxDef = s.xxDef) (hc : t.carry = s.carry) : resultOf i t = resultOf i s := by
  have hfield := State.fieldOperand_congr hf hfd
  have hany := State.anyOperand_congr hf hfd
  cases i with
  | add | sub | mul | neg | twice | half | sqr | sqrn | addone => simp only [resultOf, hfield]
  | reduce => simp only [resultOf, State.wideOperand_congr hx hxd]
  | red32 => simp only [resultOf, hany, State.carryOperand, hc]
  | canon => simp only [resultOf, hany]

/-- Settles O14: stickiness is `Effect.ill_of_ne_reset`, and the two runs of a command complete the same destination with
the same result. -/
theorem illIsSticky : Obligations.IllIsSticky := by
  intro s hs
  refine ⟨fun t hstep hreset => (effect_of_step hstep).ill_of_ne_reset hreset hs, ?reset, ?command⟩
  case reset =>
    intro t l hstep hp
    rw [step_of_pending hp] at hstep
    cases hstep
    exact State.ill_resetEngine _
  case command =>
    intro i w l hp hd
    have hres : resultOf i ({ s with status := 0#32 } : State).dropEvent = resultOf i s.dropEvent :=
      resultOf_congr i rfl rfl rfl rfl rfl
    refine ⟨_, step_command (s := { s with status := 0#32 }) hp hd, ?_⟩
    rw [step_command hp hd, hres]
    rfl

/-! ## Safe events draw no free value (R132, R151) -/

section
variable {s : State} {l : List HostEvent}

/-- A read is safe when it draws no free value. -/
theorem State.nextSafe_read_iff {a : Addr} (hp : s.pending = .read a :: l) :
    s.nextSafe = true ↔ s.readDraws a = 0 := by
  simp only [State.nextSafe, State.readDraws, hp]
  cases regAddr a <;> simp

/-- A legal command is safe when its precondition holds. -/
theorem State.nextSafe_command {w : Word} {i : Instr} (hp : s.pending = .write cmdAddr w :: l)
    (hd : decode w = .legal i) : s.nextSafe = ready i s := by
  simp only [State.nextSafe, hp, regAddr_cmdAddr, hd]

/-- An illegal word is not safe. -/
theorem State.nextSafe_illegal {w : Word} {why : IllegalCause} (hp : s.pending = .write cmdAddr w :: l)
    (hd : decode w = .illegal why) : s.nextSafe = false := by
  simp only [State.nextSafe, hp, regAddr_cmdAddr, hd]

/-- A safe command has a result, so it completes without a free value. -/
theorem State.exists_resultOf_of_nextSafe {w : Word} {i : Instr} (hp : s.pending = .write cmdAddr w :: l)
    (hd : decode w = .legal i) (hsafe : s.nextSafe = true) : ∃ z, resultOf i s.dropEvent = some z := by
  rw [State.nextSafe_command hp hd, ← isSome_resultOf] at hsafe
  rw [resultOf_congr i (s := s) (t := s.dropEvent) rfl rfl rfl rfl rfl]
  exact Option.isSome_iff_exists.mp hsafe

/-- A read that draws no free value returns the same word whatever was drawn before. -/
theorem State.readValue_of_readDraws {a : Addr} (h : s.readDraws a = 0) (d : Nat) :
    ({ s with draws := d } : State).readValue a = s.readValue a := by
  cases hr : regAddr a with
  | field i k =>
    have hdef : s.wordDefined i k = true := by simpa [State.readDraws, hr] using h
    rw [regAddr_eq_field hr, State.readValue_fieldAddr s hdef]
    exact State.readValue_fieldAddr { s with draws := d } hdef
  | _ => simp only [State.readValue, hr]

/-- Such a read leaves the same state, the count of free values apart. -/
theorem State.hostRead_of_readDraws {a : Addr} (h : s.readDraws a = 0) (d : Nat) :
    ({ s with draws := d } : State).hostRead a = { s.hostRead a with draws := d } := by
  have hdraws : ({ s with draws := d } : State).readDraws a = 0 := h
  simp only [State.hostRead, State.readValue_of_readDraws h, hdraws, Nat.add_zero]

end

/-- A step draws a free value only where a read or a command has no value of its own. -/
theorem Effect.draws_of_nextSafe {s t : State} (h : Effect s t) (hsafe : s.nextSafe = true) : t.draws = s.draws := by
  cases h with
  | read a l hp e =>
    have hread : s.dropEvent.readDraws a = 0 := (State.nextSafe_read_iff hp).mp hsafe
    rw [e, State.hostRead_draws, hread, State.dropEvent_draws, Nat.add_zero]
  | command i w l hp hd e =>
    obtain ⟨z, hz⟩ := State.exists_resultOf_of_nextSafe hp hd hsafe
    rw [e, hz]
    rfl
  | idle _ e | reset _ _ e | field _ _ _ _ _ e | xx _ _ _ _ e | carry _ _ _ e | illegal _ _ _ _ _ e
  | ignored _ _ _ _ _ e =>
    subst e
    rfl

/-- A safe step from the same state with another count of free values leaves the same state with that count. -/
theorem Effect.step_setDraws {s t : State} (h : Effect s t) (hsafe : s.nextSafe = true) (d : Nat) :
    step { s with draws := d } = .next { t with draws := d } := by
  have hwrite {a : Addr} {v : Word} {l : List HostEvent} (hp : s.pending = .write a v :: l) :
      step { s with draws := d } = hostWrite a v { s.dropEvent with draws := d } :=
    step_write (s := { s with draws := d }) hp
  cases h with
  | idle hp e =>
    subst e
    exact idleStepHoldsState _ hp
  | read a l hp e =>
    have hread : s.dropEvent.readDraws a = 0 := (State.nextSafe_read_iff hp).mp hsafe
    rw [e, ← State.hostRead_of_readDraws hread]
    exact step_read (s := { s with draws := d }) hp
  | reset l hp e => exact e ▸ step_of_pending (s := { s with draws := d }) hp
  | field i k v l hp e => exact e ▸ (hwrite hp).trans (hostWrite_fieldAddr _ i k v)
  | xx k v l hp e => exact e ▸ (hwrite hp).trans (hostWrite_xxAddr _ k v)
  | carry v l hp e => exact e ▸ (hwrite hp).trans (hostWrite_carryAddr _ v)
  | ignored a v l hp ha e => exact e ▸ (hwrite hp).trans (hostWrite_ignored _ ha v)
  | illegal why w l hp hd _ =>
    rw [State.nextSafe_illegal hp hd] at hsafe
    cases hsafe
  | command i w l hp hd e =>
    obtain ⟨z, hz⟩ := State.exists_resultOf_of_nextSafe hp hd hsafe
    have hz' : resultOf i ({ s with draws := d } : State).dropEvent = some z :=
      (resultOf_congr i rfl rfl rfl rfl rfl).trans hz
    rw [e, hz, step_command (s := { s with draws := d }) hp hd, hz']
    rfl

/-- Settles O49: a safe event draws nothing and is blind to earlier draws, and the one event that raises ILL, an illegal
word, is not safe. -/
theorem safeStepDrawsNothing : Obligations.SafeStepDrawsNothing := by
  intro s t hsafe hstep
  have heff := effect_of_step hstep
  refine ⟨heff.draws_of_nextSafe hsafe, fun hs => ?_, heff.step_setDraws hsafe⟩
  refine Bool.eq_false_iff.mpr fun ht => ?_
  obtain ⟨w, l, why, hp, hd⟩ := onlyIllegalWordRaisesIll s t hstep hs ht
  rw [State.nextSafe_illegal hp hd] at hsafe
  cases hsafe

end Sys2Proof.Machine
end

section
/-! PROOFS. The reset event (spec/70_reset_and_hazards.md R150): what it leaves, and that no other event undoes a defined
word of XX; `Effect.ill_of_ne_reset` and `Effect.wordDefined_iff` say the same of ILL and of the field words. -/

namespace Sys2Proof.Machine

/-- A host write of one word of XX undefines none. -/
theorem State.xxDef_setXXWord (s : State) (m k : Fin 16) (v : Word) :
    (s.setXXWord m v).xxDef[k] = (decide (k = m) || s.xxDef[k]) := by
  rw [State.setXXWord_xxDef]
  by_cases h : k = m
  · subst h
    simp
  · have hne : m.val ≠ k.val := fun hv => h (Fin.ext hv).symm
    simp [Vector.getElem_set_ne _ _ hne, h]

/-- A step other than a reset keeps the defined words of XX defined. -/
theorem Effect.xxDef_of_ne_reset {s t : State} (h : Effect s t) (hreset : ∀ l, s.pending ≠ .reset :: l) (k : Fin 16)
    (hk : s.xxDef[k] = true) : t.xxDef[k] = true := by
  cases h with
  | reset l hp _ => exact absurd hp (hreset l)
  | xx m v _ _ e =>
    have drop : s.dropEvent.xxDef[k] = true := hk
    rw [e, State.xxDef_setXXWord, drop, Bool.or_true]
  | idle _ e | read _ _ _ e | field _ _ _ _ _ e | carry _ _ _ e | command _ _ _ _ _ e | illegal _ _ _ _ _ e
  | ignored _ _ _ _ _ e =>
    subst e
    exact hk

/-- Settles O17: the reset event leaves the values of `State.reset`, and every other effect keeps ILL and the defined
words. -/
theorem resetEvent : Obligations.ResetEvent := by
  refine ⟨fun s l hp => ?reset, fun s t hstep hreset => ?other⟩
  case reset =>
    refine ⟨_, step_of_pending hp, rfl, rfl, fun i k => ?_, State.xxDef_reset, congrArg List.tail hp⟩
    exact (State.wordDefined_congr (s := State.reset) rfl i k).trans (State.wordDefined_reset i k)
  case other =>
    have heff := effect_of_step hstep
    exact ⟨heff.ill_of_ne_reset hreset, fun i k hk => (heff.wordDefined_iff hreset i k).mpr (.inl hk),
      heff.xxDef_of_ne_reset hreset⟩

end Sys2Proof.Machine
end
